-- ==== Sys2Proof/Word.lean ====
section
/-! DEFINITION. The word types of the block: 64-bit patterns and bytes (00_scope.md R5, R6, R11). -/

namespace Sys2Proof

/-- A byte: an encoded byte of a varint, an IBUF or OBUF register, an element of the byte source. -/
abbrev U8 := BitVec 8

/-- A 64-bit pattern: every operand, result and loop variable (R5). -/
abbrev U64 := BitVec 64

/-- `ONES` of R11, the pattern of −1. -/
abbrev ONES : U64 := 0xFFFFFFFFFFFFFFFF#64

end Sys2Proof
end

