-- ==== Sys2Proof/Config.lean ====
section
/-! DEFINITION. What this hardware fixes (00_scope.md R6–R9) and the free values the spec leaves open
(10_state.md R47: the hidden registers after a reset). -/

namespace Sys2Proof

/-- The values of the model's one argument `P_READS_EOI` (R9): what READS does at end-of-input. -/
inductive ReadsEoi where
  | error
  | fault
  deriving DecidableEq, Repr

namespace Config

/-- `GROUP_BITS` (R6). -/
abbrev groupBits : Nat := 7

/-- `CONT_MASK` (R6), as the encoders use it on a 64-bit value. -/
abbrev contMask : U64 := 0x80#64

/-- `PAYLOAD_MASK` (R6), as the encoders use it on a 64-bit value. -/
abbrev payloadMask : U64 := 0x7F#64

/-- `CAP_U`, the group cap of DECU and READU (R7). -/
abbrev capU : Nat := 9

/-- `CAP_S`, the group cap of DECS and READS (R7). -/
abbrev capS : Nat := 5

/-- `IBUF_SIZE` (R8). -/
abbrev ibufSize : Nat := 16

/-- `OBUF_SIZE` (R8). -/
abbrev obufSize : Nat := 10

/-- This hardware's value of `P_READS_EOI` (R9, 92_eei_decisions.md D11). -/
abbrev readsEoi : ReadsEoi := .error

/-- Free value: `op` after the n-th RESET action (R47 "unspecified"; log 6). -/
opaque freeOp : Nat → BitVec 3

/-- Free value: `v` after the n-th RESET action (R47; log 6). -/
opaque freeV : Nat → U64

/-- Free value: `rem` after the n-th RESET action (R47; log 6). -/
opaque freeRem : Nat → U64

/-- Free value: `endv` after the n-th RESET action (R47; log 6). -/
opaque freeEndv : Nat → U64

/-- Free value: `acc` after the n-th RESET action (R47; log 6). -/
opaque freeAcc : Nat → U64

/-- Free value: `mask` after the n-th RESET action (R47; log 6). -/
opaque freeMask : Nat → U64

end Config
end Sys2Proof
end

