-- ==== Sys2Proof/Syntax.lean ====
section
/-! DEFINITION. The instructions: one constructor per row of spec/opcode_table.json
(00_scope.md R2, 30_encoding.md R76). No command has an operand field: OPERAND, IBUF and the byte source
are state, and bits 63..3 of the command word are ignored (R75). -/

namespace Sys2Proof

/-- The six operations of the block (R2), in the order of R76. -/
inductive Instr where
  /-- Unsigned encode (R110–R113). -/
  | encu
  /-- Unsigned decode from IBUF (R114–R119). -/
  | decu
  /-- Unsigned decode from the byte source (R120–R123). -/
  | readu
  /-- Signed encode (R130–R133). -/
  | encs
  /-- Signed decode from IBUF (R134–R139). -/
  | decs
  /-- Signed decode from the byte source (R140–R143, R146). -/
  | reads
  deriving DecidableEq, Repr

end Sys2Proof
end

