-- ==== Sys2Proof/Syntax/Actions.lean ====
section
/-! DEFINITION. What the host can do: the names of the register port (10_state.md R21), the host actions and
their codes (30_encoding.md R79), the assembly items with the pseudo-instructions (R80), and the turns of an
interleaving of the agents (20_memory.md R63). -/

namespace Sys2Proof

/-- What an index of the register port names (R21). -/
inductive Reg where
  | cmd
  | operand
  | result
  | status
  | ilen
  | ibuf (i : Fin 16)
  | obuf (i : Fin 10)
  /-- Every other index: 0x05–0x0F and 0x2A–0xFF (R21, R33). -/
  | reserved (idx : BitVec 8)
  deriving DecidableEq, Repr

/-- A host action (R79). -/
inductive HostAction where
  | rd (idx : BitVec 8)
  | wr (idx : BitVec 8) (w : U64)
  | push (b : U8)
  | close
  | reset
  deriving DecidableEq, Repr

/-- The encoding `(kind, idx, w)` of a host action (R79). -/
structure ActionCode where
  kind : Nat
  idx  : BitVec 8
  w    : U64
  deriving DecidableEq, Repr

/-- One item of a host program in assembly form: the actions of R79 with a register name and a decimal or
hexadecimal immediate, and the pseudo-instructions of R80. -/
inductive AsmItem where
  | rd (r : Reg)
  | wr (r : Reg) (imm : Int)
  | push (b : U8)
  | close
  | reset
  /-- One of the six pseudo-instructions ENCU..READS. -/
  | op (i : Instr)
  | ldib (bytes : List U8)
  | wait
  deriving DecidableEq, Repr

/-- One turn of an interleaving (R63; log 1): the engine's, a host action, or the host loop WAIT (R80). -/
inductive Turn where
  | engine
  | host (a : HostAction)
  | wait
  deriving DecidableEq, Repr

end Sys2Proof
end

