-- ==== Sys2Proof/WellFormed.lean ====
section
/-! DEFINITION. Which terms of the syntax are well formed. -/

namespace Sys2Proof

/-- A command has no operand field (30_encoding.md R75), so every term of `Instr` is well formed. -/
def Instr.wf : Instr → Bool
  | .encu | .decu | .readu | .encs | .decs | .reads => true

/-- The reserved indices are exactly 0x05–0x0F and 0x2A–0xFF (10_state.md R21). -/
def reservedIndex (idx : BitVec 8) : Bool :=
  (decide (0x05 ≤ idx.toNat) && decide (idx.toNat ≤ 0x0F)) || decide (0x2A ≤ idx.toNat)

/-- A register name is well formed unless it calls a used index reserved (R21). -/
def Reg.wf : Reg → Bool
  | .reserved idx => reservedIndex idx
  | .cmd | .operand | .result | .status | .ilen | .ibuf _ | .obuf _ => true

/-- An action code is one of the five kinds, and PUSH carries 8 bits (30_encoding.md R79). -/
def ActionCode.wf (c : ActionCode) : Bool :=
  decide (c.kind ≤ 4) && (decide (c.kind ≠ 2) || decide (c.w.toNat < 256))

/-- An immediate names a 64-bit word: an unsigned literal or a negative one in two's complement (R79). -/
def immWf (z : Int) : Bool :=
  decide (-(2 : Int) ^ 63 ≤ z) && decide (z < (2 : Int) ^ 64)

/-- An assembly item is well formed: its register is, its immediate fits 64 bits, and LDIB has at most 16
bytes (R79, R80). -/
def AsmItem.wf : AsmItem → Bool
  | .rd r => r.wf
  | .wr r z => r.wf && immWf z
  | .ldib bytes => decide (bytes.length ≤ 16)
  | .op i => i.wf
  | .push _ | .close | .reset | .wait => true

end Sys2Proof
end

