-- ==== Sys2Proof/Decode.lean ====
section
/-! DEFINITION. The decoders and encoders of 30_encoding.md: command words (R75–R77), the register index map
(10_state.md R21), host action codes (R79) and the expansion of the assembly items (R80). -/

namespace Sys2Proof

/-! ## Command words (format CW) -/

/-- Why a word names no command. -/
inductive DecodeError where
  /-- KIND = 3: OP = 3 or OP = 7 (R77). -/
  | illegalOp (op : BitVec 3)
  deriving DecidableEq, Repr

/-- The field OP = w[2:0] (R75); bits 63..3 are ignored. -/
def opField (w : U64) : BitVec 3 := w.setWidth 3

/-- The field SGN = OP[2] (R75). -/
def sgnField (op : BitVec 3) : Bool := op.getLsbD 2

/-- The field KIND = OP[1:0] (R75). -/
def kindField (op : BitVec 3) : BitVec 2 := op.setWidth 2

/-- The opcode map (R76), total on the eight values of OP. -/
def decodeOp (op : BitVec 3) : Except DecodeError Instr :=
  match op.toNat with
  | 0 => .ok .encu
  | 1 => .ok .decu
  | 2 => .ok .readu
  | 4 => .ok .encs
  | 5 => .ok .decs
  | 6 => .ok .reads
  | _ => .error (.illegalOp op)

/-- The command a CMD word spells (R75, R76). -/
def decode (w : U64) : Except DecodeError Instr := decodeOp (opField w)

/-- OP of a command (R76). -/
def opcode : Instr → BitVec 3
  | .encu => 0b000#3
  | .decu => 0b001#3
  | .readu => 0b010#3
  | .encs => 0b100#3
  | .decs => 0b101#3
  | .reads => 0b110#3

/-- The word of a command, with 0 in the ignored bits (R75 "write 0"). -/
def encode (i : Instr) : U64 := (opcode i).setWidth 64

/-- The CMD word of the table's word `w` of `nbits` bits, its other bits 0. The register port moves whole 64-bit
words and has no byte order (20_memory.md R51; log 11). -/
def tableWord (nbits w : Nat) : U64 := BitVec.ofNat 64 (w % 2 ^ nbits)

/-- What the decoder reads from the table's word `w` of `nbits` bits. -/
def decodeTableWord (nbits w : Nat) : Option Instr :=
  match decode (tableWord nbits w) with
  | .ok i => some i
  | .error _ => none

/-! ## The register index map -/

/-- The register an index names (R21). -/
def regAt (idx : BitVec 8) : Reg :=
  if idx.toNat = 0x00 then .cmd
  else if idx.toNat = 0x01 then .operand
  else if idx.toNat = 0x02 then .result
  else if idx.toNat = 0x03 then .status
  else if idx.toNat = 0x04 then .ilen
  else if h : 0x10 ≤ idx.toNat ∧ idx.toNat < 0x20 then .ibuf ⟨idx.toNat - 0x10, by omega⟩
  else if h : 0x20 ≤ idx.toNat ∧ idx.toNat < 0x2A then .obuf ⟨idx.toNat - 0x20, by omega⟩
  else .reserved idx

/-- The index of a register (R21). -/
def Reg.index : Reg → BitVec 8
  | .cmd => 0x00#8
  | .operand => 0x01#8
  | .result => 0x02#8
  | .status => 0x03#8
  | .ilen => 0x04#8
  | .ibuf i => BitVec.ofNat 8 (0x10 + i.val)
  | .obuf i => BitVec.ofNat 8 (0x20 + i.val)
  | .reserved idx => idx

/-! ## Host action codes -/

/-- Why an action code names no action (log 14). -/
inductive ActionError where
  /-- The kind is none of 0..4. -/
  | unknownKind (kind : Nat)
  /-- A PUSH whose immediate is wider than 8 bits. -/
  | widePush (w : U64)
  deriving DecidableEq, Repr

/-- The code of a host action (R79); the fields R79 leaves as '–' are 0 (log 14). -/
def encodeAction : HostAction → ActionCode
  | .rd idx => ⟨0, idx, 0⟩
  | .wr idx w => ⟨1, idx, w⟩
  | .push b => ⟨2, 0, b.setWidth 64⟩
  | .close => ⟨3, 0, 0⟩
  | .reset => ⟨4, 0, 0⟩

/-- The host action of a code (R79); the fields R79 leaves as '–' are not read. -/
def decodeAction (c : ActionCode) : Except ActionError HostAction :=
  match c.kind with
  | 0 => .ok (.rd c.idx)
  | 1 => .ok (.wr c.idx c.w)
  | 2 => if c.w.toNat < 256 then .ok (.push (c.w.setWidth 8)) else .error (.widePush c.w)
  | 3 => .ok .close
  | 4 => .ok .reset
  | k => .error (.unknownKind k)

/-! ## Assembly items -/

/-- The word of an immediate: a negative literal stands for its 64-bit two's-complement pattern (R79). -/
def immWord (z : Int) : U64 := BitVec.ofInt 64 z

/-- The IBUF writes of LDIB from byte `k` on (R80). -/
def loadBytes : Nat → List U8 → List Turn
  | _, [] => []
  | k, b :: bs => .host (.wr (BitVec.ofNat 8 (0x10 + k)) (b.setWidth 64)) :: loadBytes (k + 1) bs

/-- The turns an assembly item stands for (R79, R80). -/
def AsmItem.expand : AsmItem → List Turn
  | .rd r => [.host (.rd r.index)]
  | .wr r z => [.host (.wr r.index (immWord z))]
  | .push b => [.host (.push b)]
  | .close => [.host .close]
  | .reset => [.host .reset]
  | .op i => [.host (.wr Reg.cmd.index (encode i))]
  | .ldib bytes => loadBytes 0 bytes ++ [.host (.wr Reg.ilen.index (BitVec.ofNat 64 bytes.length))]
  | .wait => [.wait]

/-- The turns of a host program in assembly form. -/
def assemble (p : List AsmItem) : List Turn := p.flatMap AsmItem.expand

end Sys2Proof
end

