-- ==== Sys2Proof/Machine/State.lean ====
section
/-! DEFINITION. The state of the block, the byte source and the host's side (10_state.md), the reasons a step can
stop, and the state after reset (R47). -/

namespace Sys2Proof.Machine

/-- The error kinds of STATUS.ERR (60_exceptions.md R151). Codes 4–15 are never produced and name nothing
(93_implementation_defined.md I6; log 17). -/
inductive ErrCode where
  | none
  | unexpectedEoi
  | truncated
  | illegalOp
  deriving DecidableEq, Repr

/-- The engine's sequencing state (R40). -/
inductive Phase where
  | idle
  | run
  | faulted
  deriving DecidableEq, Repr

/-- The fields of STATUS (R25–R32). -/
structure Status where
  busy   : Bool
  done   : Bool
  caphit : Bool
  hazard : Bool
  fault  : Bool
  err    : ErrCode
  nbytes : BitVec 4
  deriving DecidableEq, Repr

/-- STATUS at reset (R47). -/
def Status.reset : Status :=
  { busy := false, done := false, caphit := false, hazard := false, fault := false, err := .none, nbytes := 0 }

/-- The block: its host-visible registers (R23–R36) and its hidden engine registers (R38–R44). CMD has no
storage (R22). -/
structure Block where
  operand : U64
  result  : U64
  status  : Status
  ilen    : BitVec 5
  ibuf    : Vector U8 16
  obuf    : Vector U8 10
  phase   : Phase
  op      : BitVec 3
  v       : U64
  rem     : U64
  endv    : U64
  acc     : U64
  mask    : U64
  deriving DecidableEq, Repr

/-- The block after a reset (R47, R170), with the given values in the six registers R47 leaves unspecified. -/
def Block.afterReset (op : BitVec 3) (v rem endv acc mask : U64) : Block :=
  { operand := 0, result := 0, status := Status.reset, ilen := 0, ibuf := Vector.replicate 16 0,
    obuf := Vector.replicate 10 0, phase := .idle, op := op, v := v, rem := rem, endv := endv, acc := acc,
    mask := mask }

/-- The byte source (R46): the bytes not yet read, the next one first, and whether the host has closed it. -/
structure Source where
  queue  : List U8
  closed : Bool
  deriving DecidableEq, Repr

/-- The whole machine: the block, the byte source, and the model's own fields. -/
structure State where
  /-- The block (R20.1, R20.2). -/
  blk      : Block
  /-- The byte source (R20.3, R46). -/
  src      : Source
  /-- The turns still to come: the host's program and its interleaving with the engine (20_memory.md R63; log 1). -/
  turns    : List Turn
  /-- The words the host's reads have returned, oldest first (40_operation_lifecycle.md R90; log 2). -/
  answers  : List U64
  /-- How many RESET actions there have been: the argument of the free values (log 6). -/
  resets   : Nat
  /-- `P_READS_EOI`, the model's one argument, constant during a run (00_scope.md R9; log 8). -/
  readsEoi : ReadsEoi
  deriving DecidableEq, Repr

/-- The machine right after power-on (R47). The hidden registers are 0 (log 5), the byte source is empty and open
(log 7), no turn is waiting (log 1), and `P_READS_EOI` has this hardware's value (R9). -/
def State.reset : State :=
  { blk := Block.afterReset 0 0 0 0 0 0, src := { queue := [], closed := false }, turns := [], answers := [],
    resets := 0, readsEoi := Config.readsEoi }

/-- Why a step stops. In each case no agent has a step the spec describes; stopping is safe (log 4, log 12). -/
inductive Fault where
  /-- Raised by `step`: phase IDLE and no turn left, so neither the engine (R96) nor the host has a step. The run
  is over. Safe. -/
  | runEnded
  /-- Raised by `step`, READU and READS: a READ is held on an empty open source and no turn is left to feed it
  (R96, R175; 93_implementation_defined.md I10 "stuck"). Safe. -/
  | readHeld
  /-- Raised by `step`: phase FAULTED and no turn left (R100). Safe. -/
  | engineStopped
  /-- Raised by `engineStep` and `step`: phase RUN with op 3 or 7, which no reachable state has (R97). Safe. -/
  | illegalOpRunning
  /-- Raised by ENCU and ENCS: OBUF[k] with k ≥ 10, which is never addressed (20_memory.md R53). Safe. -/
  | obufIndex
  deriving DecidableEq, Repr

/-- Why an instruction has no meaning. -/
inductive Refusal where
  /-- Raised by an arm of `exec` whose instruction is not modelled; no arm of this model is one. Safe. -/
  | notModelled (mnemonic : String)
  deriving DecidableEq, Repr

/-- What a step answers. -/
abbrev Outcome := Host.Outcome State Fault Refusal

/-! ## Updates of the state, one per agent -/

/-- The state with another block. -/
def State.withBlk (s : State) (b : Block) : State := { s with blk := b }

/-- The state with another byte source. -/
def State.withSrc (s : State) (src : Source) : State := { s with src := src }

/-- The state with other turns to come. -/
def State.withTurns (s : State) (ts : List Turn) : State := { s with turns := ts }

/-- The state after a read returned `w` to the host (R90). -/
def State.answer (s : State) (w : U64) : State := { s with answers := s.answers ++ [w] }

end Sys2Proof.Machine
end

