-- ==== Sys2Proof/Machine/Operands.lean ====
section
/-! DEFINITION. Bit fields, sign extension and the operands an operation reads: IBUF bytes, byte-source bytes and
registers through the port (00_scope.md R11–R13, 20_memory.md R51–R57, 30_encoding.md R70–R73). -/

namespace Sys2Proof.Machine

/-! ## The varint byte (format VB, R70) -/

/-- The payload group G = b & 0x7F, zero-extended to 64 bits (R72). -/
def payload (b : U8) : U64 := (b &&& 0x7F#8).setWidth 64

/-- The continuation flag C = b[7] (R70). -/
def contBit (b : U8) : Bool := b.getLsbD 7

/-- The byte an encoder emits for value `v`: its low 7 bits, with 0x80 where more bytes follow (R73). -/
def groupByte (v : U64) (more : Bool) : U8 :=
  ((v &&& Config.payloadMask) ||| (if more then Config.contMask else 0)).setWidth 8

/-- `sext_n` of R11: bits n−1..0 of `v`, with bit n−1 copied into the bits above. -/
def sext (n : Nat) (v : U64) : U64 := (v.setWidth n).signExtend 64

/-! ## Operands of the decoders -/

/-- The byte IBUF[n], n = STATUS.NBYTES, where n < ILEN (R52); `none` where n ≥ ILEN. -/
def Block.inputByte (b : Block) : Option U8 :=
  if b.ilen.toNat ≤ b.status.nbytes.toNat then none
  else some (b.ibuf[b.status.nbytes.toNat]'(b.status.nbytes.isLt))

/-- An answer of the byte source (R13, R57). -/
inductive SrcAnswer where
  | byte (b : U8)
  | eoi
  deriving DecidableEq, Repr

/-- `SrcRead()` (R57): the head byte is consumed, an empty closed source answers EOI, an empty open source gives
no answer. -/
def Source.read (src : Source) : Option (SrcAnswer × Source) :=
  match src.queue with
  | b :: rest => some (.byte b, { src with queue := rest })
  | [] => if src.closed then some (.eoi, src) else none

/-- Whether `SrcRead()` can answer (R96). -/
def Source.canAnswer (src : Source) : Bool := !src.queue.isEmpty || src.closed

end Sys2Proof.Machine
end

