-- ==== Sys2Proof/Machine/Flags.lean ====
section
/-! DEFINITION. STATUS: its codes, its word as the host reads it, and what each procedure does to its fields
(10_state.md R25–R33, 60_exceptions.md R151). -/

namespace Sys2Proof.Machine

/-- The numeric code of an error (R151). -/
def ErrCode.code : ErrCode → BitVec 4
  | .none => 0
  | .unexpectedEoi => 1
  | .truncated => 2
  | .illegalOp => 3

/-- STATUS as the host reads it (R25): bits 15..12 NBYTES, 11..8 ERR, 7..5 zero, 4 FAULT, 3 HAZARD, 2 CAPHIT,
1 DONE, 0 BUSY, the rest zero (R33). -/
def Status.word (s : Status) : U64 :=
  (s.nbytes ++ s.err.code ++ 0#3 ++ BitVec.ofBool s.fault ++ BitVec.ofBool s.hazard ++ BitVec.ofBool s.caphit
    ++ BitVec.ofBool s.done ++ BitVec.ofBool s.busy : BitVec 16).setWidth 64

/-- What Start does to STATUS (40_operation_lifecycle.md R93): HAZARD and FAULT keep their values. -/
def Status.started (s : Status) : Status :=
  { s with busy := true, done := false, caphit := false, err := .none, nbytes := 0 }

/-- What IllegalStart does to STATUS (R94): BUSY, HAZARD and FAULT keep their values. -/
def Status.illegal (s : Status) : Status :=
  { s with done := true, caphit := false, err := .illegalOp, nbytes := 0 }

/-- What `Finish(err, _)` does to STATUS (R99): CAPHIT and NBYTES keep their values. -/
def Status.finished (s : Status) (err : ErrCode) : Status :=
  { s with busy := false, done := true, err := err }

/-- What `Fault()` does to STATUS (R100): BUSY stays 1, DONE and ERR stay as they are. -/
def Status.stopped (s : Status) : Status := { s with fault := true }

/-- A host write while BUSY (R92). -/
def Status.hazardous (s : Status) : Status := { s with hazard := true }

/-- A cap hit (R118, R139). -/
def Status.capped (s : Status) : Status := { s with caphit := true }

/-- One byte emitted or consumed: n ← n + 1 (R32). -/
def Status.counted (s : Status) : Status := { s with nbytes := s.nbytes + 1 }

end Sys2Proof.Machine
end

