-- ==== Sys2Proof/Machine/Ops.lean ====
section
/-! DEFINITION. The shared procedures of the block: the host's reads and writes of registers
(40_operation_lifecycle.md R90–R92), Start and IllegalStart (R93, R94), GroupAccumulate, Finish and Fault
(R98–R100), the decoder loop body (R115, R135), SignFinish (42_signed.md R136), and the emission of a byte
(41_unsigned.md R111). The block takes no trap (60_exceptions.md R160): `finish` with an error code and
`faultStop` are what stands in the place of taking an exception, and reset is the only return from the
latter. -/

namespace Sys2Proof.Machine

/-! ## Register port -/

/-- The word a host read returns (R90, R21–R36): registers zero-extended, CMD and reserved indices 0. -/
def Block.readReg (b : Block) : Reg → U64
  | .cmd => 0
  | .operand => b.operand
  | .result => b.result
  | .status => b.status.word
  | .ilen => b.ilen.setWidth 64
  | .ibuf i => b.ibuf[i].setWidth 64
  | .obuf i => b.obuf[i].setWidth 64
  | .reserved _ => 0

/-- What ILEN stores for a written word: min(uint(w), 16) (R34). -/
def ilenOf (w : U64) : BitVec 5 := BitVec.ofNat 5 (min w.toNat 16)

/-- A write to a register other than CMD on an idle block (R91): RESULT, STATUS, OBUF and the reserved indices
ignore it. CMD stores nothing (R22); what a CMD write does is `command`. -/
def Block.writeReg (b : Block) (r : Reg) (w : U64) : Block :=
  match r with
  | .operand => { b with operand := w }
  | .ilen => { b with ilen := ilenOf w }
  | .ibuf i => { b with ibuf := b.ibuf.set i (w.setWidth 8) }
  | .cmd | .result | .status | .obuf _ | .reserved _ => b

/-- STATUS.HAZARD ← 1 (R92). -/
def Block.setHazard (b : Block) : Block := { b with status := b.status.hazardous }

/-- A host write (R91, R92): its effect on an idle block; on a busy one HAZARD and nothing else. -/
def Block.hostWrite (b : Block) (effect : Block → Block) : Block :=
  if b.status.busy then b.setHazard else effect b

/-! ## Starting an operation -/

/-- Start without the operation's own initialisation (R93). -/
def Block.start (b : Block) (op : BitVec 3) : Block :=
  { b with op := op, result := 0, obuf := Vector.replicate 10 0, status := b.status.started, phase := .run }

/-- IllegalStart (R94). -/
def Block.illegalStart (b : Block) : Block :=
  { b with result := 0, obuf := Vector.replicate 10 0, status := b.status.illegal }

/-- The initialisation all four decoders share: acc ← 0, mask ← ONES (R114, R120, R134, R140). -/
def Block.clearAcc (b : Block) : Block := { b with acc := 0, mask := ONES }

/-! ## Completion -/

/-- `Finish(err, result)` (R99). -/
def Block.finish (b : Block) (err : ErrCode) (result : U64) : Block :=
  { b with result := result, status := b.status.finished err, phase := .idle }

/-- `Fault()` (R100). -/
def Block.faultStop (b : Block) : Block := { b with status := b.status.stopped, phase := .faulted }

/-! ## Decoding -/

/-- `GroupAccumulate(b)` (R98). -/
def Block.accumulate (b : Block) (byte : U8) : Block :=
  { b with acc := b.acc + (payload byte <<< (Config.groupBits * b.status.nbytes.toNat)),
           mask := b.mask <<< Config.groupBits, status := b.status.counted }

/-- Completion of the unsigned decoders: `Finish(NONE, acc)` (R115, R121). -/
def Block.finishAcc (b : Block) : Block := b.finish .none b.acc

/-- acc ← acc + mask (R136). -/
def Block.addMask (b : Block) : Block := { b with acc := b.acc + b.mask }

/-- `SignFinish()` (R136): the sign is bit 7n − 1 of acc, bit 6 of the last group read. -/
def Block.signFinish (b : Block) : Block :=
  if b.acc.getLsbD (Config.groupBits * b.status.nbytes.toNat - 1) then b.addMask.finishAcc else b.finishAcc

/-- STATUS.CAPHIT ← 1 (R118, R139). -/
def Block.capHit (b : Block) : Block := { b with status := b.status.capped }

/-- The decoder's loop body after a byte is consumed (R115, R121, R135, R141): accumulate, then route on the
continuation bit and the cap, in the order of 60_exceptions.md R158. -/
def Block.consume (b : Block) (cap : Nat) (complete : Block → Block) (byte : U8) : Block :=
  let b' := b.accumulate byte
  if contBit byte = false then complete b'
  else if b'.status.nbytes.toNat = cap then complete b'.capHit
  else b'

/-- One iteration of an in-memory decoder (R115, R135): TRUNCATED where IBUF has no byte n, else the loop
body. -/
def Block.decodeInput (b : Block) (cap : Nat) (complete : Block → Block) : Block :=
  match b.inputByte with
  | none => b.finish .truncated 0
  | some byte => b.consume cap complete byte

/-- One iteration of a streaming decoder (R121, R141), taken only where the source answers (R96). -/
def decodeStream (cap : Nat) (complete atEoi : Block → Block) (s : State) : Outcome :=
  match s.src.read with
  | none => .fault .readHeld
  | some (.eoi, src) => .next ((s.withBlk (atEoi s.blk)).withSrc src)
  | some (.byte byte, src) => .next ((s.withBlk (s.blk.consume cap complete byte)).withSrc src)

/-- `ReadsEOI()` (R146). -/
def Block.readsEoi (p : ReadsEoi) (b : Block) : Block :=
  match p with
  | .error => b.finish .unexpectedEoi 0
  | .fault => b.faultStop

/-! ## Encoding -/

/-- OBUF[n] ← byte, n ← n + 1 (R111, R131), where OBUF[n] exists. -/
def Block.emit (b : Block) (byte : U8) (h : b.status.nbytes.toNat < 10) : Block :=
  { b with obuf := b.obuf.set b.status.nbytes.toNat byte h, status := b.status.counted }

/-- Emit a byte, then go on with the rest of the iteration. OBUF[n] with n ≥ 10 is never addressed
(20_memory.md R53). -/
def emitThen (byte : U8) (k : Block → Block) (s : State) : Outcome :=
  if h : s.blk.status.nbytes.toNat < 10 then .next (s.withBlk (k (s.blk.emit byte h)))
  else .fault .obufIndex

/-! ## The host's other actions -/

/-- `PUSH b` (20_memory.md R56): no effect on a closed source. -/
def Source.push (src : Source) (b : U8) : Source :=
  if src.closed then src else { src with queue := src.queue ++ [b] }

/-- `CLOSE` (R56). -/
def Source.close (src : Source) : Source := { src with closed := true }

/-- The block after the n-th RESET action (70_reset_and_hazards.md R170): the hidden registers become
unspecified, so they hold free values (log 6). -/
def Block.hostReset (n : Nat) : Block :=
  Block.afterReset (Config.freeOp n) (Config.freeV n) (Config.freeRem n) (Config.freeEndv n) (Config.freeAcc n)
    (Config.freeMask n)

/-- The host action RESET (R170): the byte source is not touched. -/
def State.hostReset (s : State) : State := { s with blk := Block.hostReset s.resets, resets := s.resets + 1 }

end Sys2Proof.Machine
end

