-- ==== Sys2Proof/Machine/Signed.lean ====
section
/-! DEFINITION. The signed family (42_signed.md): for each of ENCS, DECS and READS the CMD write that starts it
(`exec…`, R93 with R130, R134, R140, and R92 on a busy block) and its loop iteration (`iter…`, R131, R135,
R141), which the engine takes (40_operation_lifecycle.md R97). -/

namespace Sys2Proof.Machine

/-! ## ENCS -/

/-- `InitENCS` (R130). -/
def Block.initEncs (b : Block) : Block :=
  { b with v := b.operand, rem := b.operand.sshiftRight Config.groupBits,
           endv := if b.operand.getLsbD 63 then ONES else 0 }

/-- The command ENCS (R93, R130; on a busy block R92). -/
def execEncs (s : State) : Outcome :=
  .next (s.withBlk (s.blk.hostWrite fun b => (b.start (opcode .encs)).initEncs))

/-- `more` of R131: the remaining value is not the terminal, or its lowest bit differs from bit 6 of the current
value. -/
def Block.moreSigned (b : Block) : Bool := decide (b.rem ≠ b.endv) || (b.rem.getLsbD 0 != b.v.getLsbD 6)

/-- The advance of ENCS to the next group (R131), made on the last iteration too. -/
def Block.advanceEncs (b : Block) : Block := { b with v := b.rem, rem := b.rem.sshiftRight Config.groupBits }

/-- One iteration of ENCS (R131). -/
def iterEncs (s : State) : Outcome :=
  if s.blk.moreSigned then emitThen (groupByte s.blk.v true) Block.advanceEncs s
  else emitThen (groupByte s.blk.v false) (fun b => b.advanceEncs.finish .none 0) s

/-! ## DECS -/

/-- The command DECS (R93, R134; on a busy block R92). -/
def execDecs (s : State) : Outcome :=
  .next (s.withBlk (s.blk.hostWrite fun b => (b.start (opcode .decs)).clearAcc))

/-- One iteration of DECS (R135, R136, R138, R139). -/
def iterDecs (s : State) : Outcome :=
  .next (s.withBlk (s.blk.decodeInput Config.capS Block.signFinish))

/-! ## READS -/

/-- The command READS (R93, R140; on a busy block R92). -/
def execReads (s : State) : Outcome :=
  .next (s.withBlk (s.blk.hostWrite fun b => (b.start (opcode .reads)).clearAcc))

/-- One iteration of READS (R141, R136, R139, R146). -/
def iterReads (s : State) : Outcome :=
  decodeStream Config.capS Block.signFinish (Block.readsEoi s.readsEoi) s

end Sys2Proof.Machine
end

