-- ==== Sys2Proof/Machine/Unsigned.lean ====
section
/-! DEFINITION. The unsigned family (41_unsigned.md): for each of ENCU, DECU and READU the CMD write that starts it
(`exec…`, R93 with R110, R114, R120, and R92 on a busy block) and its loop iteration (`iter…`, R111, R115,
R121), which the engine takes (40_operation_lifecycle.md R97). -/

namespace Sys2Proof.Machine

/-! ## ENCU -/

/-- `InitENCU` (R110). -/
def Block.initEncu (b : Block) : Block := { b with v := b.operand, rem := b.operand >>> Config.groupBits }

/-- The command ENCU (R93, R110; on a busy block R92). -/
def execEncu (s : State) : Outcome :=
  .next (s.withBlk (s.blk.hostWrite fun b => (b.start (opcode .encu)).initEncu))

/-- The advance of ENCU to the next group (R111). -/
def Block.advanceEncu (b : Block) : Block := { b with v := b.rem, rem := b.rem >>> Config.groupBits }

/-- One iteration of ENCU (R111). -/
def iterEncu (s : State) : Outcome :=
  if s.blk.rem ≠ 0 then emitThen (groupByte s.blk.v true) Block.advanceEncu s
  else emitThen (groupByte s.blk.v false) (fun b => b.finish .none 0) s

/-! ## DECU -/

/-- The command DECU (R93, R114; on a busy block R92). -/
def execDecu (s : State) : Outcome :=
  .next (s.withBlk (s.blk.hostWrite fun b => (b.start (opcode .decu)).clearAcc))

/-- One iteration of DECU (R115, R117, R118). -/
def iterDecu (s : State) : Outcome :=
  .next (s.withBlk (s.blk.decodeInput Config.capU Block.finishAcc))

/-! ## READU -/

/-- The command READU (R93, R120; on a busy block R92). -/
def execReadu (s : State) : Outcome :=
  .next (s.withBlk (s.blk.hostWrite fun b => (b.start (opcode .readu)).clearAcc))

/-- One iteration of READU (R121, R122, R118). -/
def iterReadu (s : State) : Outcome :=
  decodeStream Config.capU Block.finishAcc (fun b => b.finish .unexpectedEoi 0) s

end Sys2Proof.Machine
end

