-- ==== Sys2Proof/Machine/Dispatch.lean ====
section
/-! DEFINITION. The meaning of each command: the atomic step of the CMD write that names it
(40_operation_lifecycle.md R91–R93). -/

namespace Sys2Proof.Machine

def exec (i : Instr) (s : State) : Host.Outcome State Fault Refusal :=
  match i with
  | .encu => Sys2Proof.Machine.execEncu s
  | .decu => Sys2Proof.Machine.execDecu s
  | .readu => Sys2Proof.Machine.execReadu s
  | .encs => Sys2Proof.Machine.execEncs s
  | .decs => Sys2Proof.Machine.execDecs s
  | .reads => Sys2Proof.Machine.execReads s

end Sys2Proof.Machine
end

