-- ==== Sys2Proof/Machine/Engine.lean ====
section
/-! DEFINITION. The engine: when it has a step and what that step is (40_operation_lifecycle.md R96, R97). -/

namespace Sys2Proof.Machine

/-- The loop iteration of an operation (R97). -/
def iterate (i : Instr) (s : State) : Outcome :=
  match i with
  | .encu => iterEncu s
  | .decu => iterDecu s
  | .readu => iterReadu s
  | .encs => iterEncs s
  | .decs => iterDecs s
  | .reads => iterReads s

/-- Whether an operation pulls its bytes from the byte source (R96). -/
def streams : Instr → Bool
  | .readu | .reads => true
  | .encu | .decu | .encs | .decs => false

/-- Whether the engine has a step (R96). -/
def engineEnabled (s : State) : Bool :=
  match s.blk.phase with
  | .idle | .faulted => false
  | .run =>
    match decodeOp s.blk.op with
    | .ok i => !streams i || s.src.canAnswer
    | .error _ => false

/-- The engine step: one iteration of the latched operation's loop (R97). -/
def engineStep (s : State) : Outcome :=
  match decodeOp s.blk.op with
  | .ok i => iterate i s
  | .error _ => .fault .illegalOpRunning

/-- `k` engine steps in a row, each taken only where the engine has one (R96); `none` where it has not, or where a
step stops. -/
def engineSteps : Nat → State → Option State
  | 0, s => some s
  | k + 1, s =>
    if engineEnabled s then
      match engineStep s with
      | .next t => engineSteps k t
      | .fault _ => none
      | .refused _ => none
    else none

/-- Why no agent has a step, where no turn is left and the engine has none (R96, R101). -/
def stopReason (s : State) : Fault :=
  match s.blk.phase with
  | .idle => .runEnded
  | .faulted => .engineStopped
  | .run =>
    match decodeOp s.blk.op with
    | .ok _ => .readHeld
    | .error _ => .illegalOpRunning

end Sys2Proof.Machine
end

