-- ==== Sys2Proof/Machine/HostPort.lean ====
section
/-! DEFINITION. The host's turns: register reads and writes, commands, PUSH, CLOSE, RESET and the WAIT loop
(40_operation_lifecycle.md R90–R95, 20_memory.md R56, 30_encoding.md R79, R80). -/

namespace Sys2Proof.Machine

/-- A CMD write (R91): the command the word spells, or IllegalStart where it spells none; HAZARD on a busy block
(R92). -/
def command (w : U64) (s : State) : Outcome :=
  match decode w with
  | .ok i => exec i s
  | .error _ => .next (s.withBlk (s.blk.hostWrite Block.illegalStart))

/-- `WR idx, w` (R91, R92). -/
def hostWrite (idx : BitVec 8) (w : U64) (s : State) : Outcome :=
  match regAt idx with
  | .cmd => command w s
  | r => .next (s.withBlk (s.blk.hostWrite fun b => b.writeReg r w))

/-- `RD idx` (R90). -/
def hostRead (idx : BitVec 8) (s : State) : State := s.answer (s.blk.readReg (regAt idx))

/-- A host action (R79); every one is enabled in every state (R95). -/
def hostAct (a : HostAction) (s : State) : Outcome :=
  match a with
  | .rd idx => .next (hostRead idx s)
  | .wr idx w => hostWrite idx w s
  | .push b => .next (s.withSrc (s.src.push b))
  | .close => .next (s.withSrc s.src.close)
  | .reset => .next s.hostReset

/-- Whether a STATUS word ends WAIT: bit 1 (DONE) or bit 4 (FAULT) is 1 (R80). -/
def waitEnds (w : U64) : Bool := w.getLsbD 1 || w.getLsbD 4

/-- One poll of WAIT (R80): a read of STATUS; where it does not end the loop, the engine has a turn and WAIT goes
on (log 3). -/
def waitPoll (s : State) : State :=
  let s' := hostRead Reg.status.index s
  if waitEnds s.blk.status.word then s' else s'.withTurns (.engine :: .wait :: s'.turns)

/-- A turn of the interleaving. A turn of the engine where it has no step passes (R96; log 1). -/
def takeTurn (t : Turn) (s : State) : Outcome :=
  match t with
  | .engine => if engineEnabled s then engineStep s else .next s
  | .host a => hostAct a s
  | .wait => .next (waitPoll s)

/-- What happens where no turn is left: the engine runs while it has a step (weak fairness, R103), and then no
agent has one (log 4). -/
def engineAlone (s : State) : Outcome :=
  if engineEnabled s then engineStep s else .fault (stopReason s)

/-- The turn in which the host writes `w` to CMD: how a command word reaches the block (R66). -/
def commandTurn (w : U64) : Turn := .host (.wr Reg.cmd.index w)

end Sys2Proof.Machine
end

