-- ==== Sys2Proof/Machine/Step.lean ====
section
/-! DEFINITION. One step of the machine (20_memory.md R63), and how a command word is placed for the next
step. -/

namespace Sys2Proof.Machine

/-- One atomic step: the next turn's, or the engine's where no turn is left. -/
def step (s : State) : Host.Outcome State Fault Refusal :=
  match s.turns with
  | [] => engineAlone s
  | t :: rest => takeTurn t (s.withTurns rest)

/-- The state whose next step is the CMD write of the table's word (log 10). -/
def State.withFetchWord (s : State) (nbits w : Nat) : State :=
  s.withTurns (commandTurn (tableWord nbits w) :: s.turns)

end Sys2Proof.Machine
end

