-- ==== Sys2Proof/Safety.lean ====
section
/-! DEFINITION. What counts as a faulted, a final and a legal state (40_operation_lifecycle.md R101,
60_exceptions.md R156, R157, 10_state.md R48). -/

namespace Sys2Proof.Machine

/-- A state a claim must count as a failure: the engine is in FAULTED (R101, R157), or the host broke its duty of
R174 and HAZARD is set (R156). The machine itself goes on (log 9). -/
def State.treatedAsFaulted (s : State) : Bool := decide (s.blk.phase = .faulted) || s.blk.status.hazard

/-- The end of a run of a host program (R101): no action left, phase IDLE, FAULT = 0 and HAZARD = 0. -/
def State.final (s : State) : Bool :=
  decide (s.turns = []) && decide (s.blk.phase = .idle) && !s.blk.status.fault && !s.blk.status.hazard

/-- `k` steps that end in a state not treated as faulted. -/
def safeRun (k : Nat) (s t : State) : Prop :=
  Sys2Proof.core.run k s = .next t ∧ t.treatedAsFaulted = false

/-- OP of a decoder that reads IBUF (R76). -/
def readsInput (op : BitVec 3) : Bool := decide (op = opcode .decu) || decide (op = opcode .decs)

/-- OP of an unsigned decoder (R76). -/
def unsignedDecoder (op : BitVec 3) : Bool := decide (op = opcode .decu) || decide (op = opcode .readu)

/-- OP of a signed decoder (R76). -/
def signedDecoder (op : BitVec 3) : Bool := decide (op = opcode .decs) || decide (op = opcode .reads)

/-- The invariants of R48, item by item. The bound of item 4 against ILEN is read of a running operation: an idle
host may lower ILEN afterwards (log 13). -/
structure Block.R48 (b : Block) : Prop where
  busy_iff        : b.status.busy = true ↔ b.phase ≠ .idle
  fault_iff       : b.status.fault = true ↔ b.phase = .faulted
  done_not_busy   : b.status.done = true → b.status.busy = false
  nbytes_le       : b.status.nbytes.toNat ≤ 10
  nbytes_unsigned : unsignedDecoder b.op = true → b.status.nbytes.toNat ≤ 9
  nbytes_signed   : signedDecoder b.op = true → b.status.nbytes.toNat ≤ 5
  nbytes_ilen     : b.phase = .run → readsInput b.op = true → b.status.nbytes.toNat ≤ b.ilen.toNat
  err_code        : b.status.err.code.toNat ≤ 3
  err_result      : b.status.err ≠ .none → b.result = 0
  obuf_zero       : ∀ i : Fin 10, b.status.nbytes.toNat ≤ i.val → b.obuf[i] = 0

end Sys2Proof.Machine
end

