-- ==== Sys2Proof/Safety/ClosedForm.lean ====
section
/-! DEFINITION. The closed forms of 41_unsigned.md and 42_signed.md as functions of the operand or of the bytes,
and the loop invariant of a running operation: the terms statements are written in. The machine uses none of
them. -/

namespace Sys2Proof.Machine

/-! ## Encoders -/

/-- `bitlen` of R112. -/
def bitlen (x : Nat) : Nat := if x = 0 then 0 else Nat.log2 x + 1

/-- The length of an unsigned encoding: max(1, ceil(bitlen(x) / 7)) (R112). -/
def encULen (x : U64) : Nat := max 1 ((bitlen x.toNat + 6) / 7)

/-- Byte k of the unsigned encoding (R112), 0 from its end on. -/
def encUByte (x : U64) (k : Nat) : U8 :=
  if k < encULen x then groupByte (x >>> (7 * k)) (decide (k + 1 < encULen x)) else 0

/-- Whether s fits in 7k bits of two's complement (R132). -/
def fitsSigned (s : Int) (k : Nat) : Bool :=
  decide (-(2 : Int) ^ (7 * k - 1) ≤ s) && decide (s ≤ (2 : Int) ^ (7 * k - 1) - 1)

/-- The length of a signed encoding: the least k ≥ 1 with s in 7k bits (R132); no 64-bit value needs more than
10 (R133). -/
def encSLen (x : U64) : Nat :=
  match (List.range 9).find? fun k => fitsSigned x.toInt (k + 1) with
  | some k => k + 1
  | none => 10

/-- Byte k of the signed encoding (R132), 0 from its end on. -/
def encSByte (x : U64) (k : Nat) : U8 :=
  if k < encSLen x then groupByte (x.sshiftRight (7 * k)) (decide (k + 1 < encSLen x)) else 0

/-! ## Decoders, over the bytes b_0, b_1, … -/

/-- Σ_{k<L} zext_64(b_k & 0x7F) << 7k (R116, R137). -/
def groupSum (f : Nat → U8) : Nat → U64
  | 0 => 0
  | L + 1 => groupSum f L + (payload (f L) <<< (7 * L))

/-- min({k+1 : k < cap, b_k[7] = 0} ∪ {cap}) (R71, R116, R137). -/
def varintLen (cap : Nat) (f : Nat → U8) : Nat :=
  match (List.range cap).find? fun k => !contBit (f k) with
  | some k => k + 1
  | none => cap

/-- Fewer than cap bytes, each with its continuation bit set (R116, R123, R137, R142). -/
def runsOut (cap : Nat) (f : Nat → U8) (len : Nat) : Prop := len < cap ∧ ∀ k, k < len → contBit (f k) = true

/-- The bytes of IBUF by index. -/
def Block.inputAt (b : Block) (k : Nat) : U8 := b.ibuf.toList.getD k 0

/-- The bytes of a queue by index. -/
def byteAt (q : List U8) (k : Nat) : U8 := q.getD k 0

/-- The bytes of OBUF by index. -/
def Block.outputAt (b : Block) (k : Nat) : U8 := b.obuf.toList.getD k 0

/-! ## The end of an operation -/

/-- A completed operation (R99, R101) with its final outputs (R173). -/
structure Block.Completed (b : Block) (err : ErrCode) (result : U64) (caphit : Bool) (n : Nat) : Prop where
  phase_idle : b.phase = .idle
  not_busy   : b.status.busy = false
  done       : b.status.done = true
  err_eq     : b.status.err = err
  result_eq  : b.result = result
  caphit_eq  : b.status.caphit = caphit
  nbytes_eq  : b.status.nbytes.toNat = n

/-- A faulted operation (R100, R101) after `n` bytes. -/
structure Block.Stopped (b : Block) (n : Nat) : Prop where
  phase_faulted : b.phase = .faulted
  busy          : b.status.busy = true
  fault         : b.status.fault = true
  not_done      : b.status.done = false
  err_none      : b.status.err = .none
  result_zero   : b.result = 0
  caphit_off    : b.status.caphit = false
  nbytes_eq     : b.status.nbytes.toNat = n

/-- What no operation changes: the host-written registers, HAZARD, and everything outside the block but the byte
source (R23, R29, R34, R35). -/
structure State.KeepsInputs (s t : State) : Prop where
  operand  : t.blk.operand = s.blk.operand
  ilen     : t.blk.ilen = s.blk.ilen
  ibuf     : t.blk.ibuf = s.blk.ibuf
  hazard   : t.blk.status.hazard = s.blk.status.hazard
  turns    : t.turns = s.turns
  answers  : t.answers = s.answers
  resets   : t.resets = s.resets
  readsEoi : t.readsEoi = s.readsEoi

/-- The command `i` on `s` starts, and `k` engine steps later the machine is in `u`. -/
def runsTo (i : Instr) (s : State) (k : Nat) (u : State) : Prop :=
  ∃ t, exec i s = .next t ∧ engineSteps k t = some u

/-! ## The loop invariant of a running operation -/

/-- A running ENCU: v and rem are OPERAND shifted by the groups emitted, and the groups emitted are in OBUF. -/
structure Block.EncuLoop (b : Block) : Prop where
  nbytes_lt : b.status.nbytes.toNat < 10
  v_eq      : b.v = b.operand >>> (7 * b.status.nbytes.toNat)
  rem_eq    : b.rem = b.operand >>> (7 * (b.status.nbytes.toNat + 1))
  more      : 0 < b.status.nbytes.toNat → b.v ≠ 0
  emitted   : ∀ k, k < b.status.nbytes.toNat → b.outputAt k = groupByte (b.operand >>> (7 * k)) true

/-- A running ENCS: as ENCU with the arithmetic shift, and the terminal is OPERAND's sign. -/
structure Block.EncsLoop (b : Block) : Prop where
  nbytes_lt : b.status.nbytes.toNat < 10
  v_eq      : b.v = b.operand.sshiftRight (7 * b.status.nbytes.toNat)
  rem_eq    : b.rem = b.operand.sshiftRight (7 * (b.status.nbytes.toNat + 1))
  endv_eq   : b.endv = if b.operand.getLsbD 63 then ONES else 0
  more      : 0 < b.status.nbytes.toNat → fitsSigned b.operand.toInt b.status.nbytes.toNat = false
  emitted   : ∀ k, k < b.status.nbytes.toNat → b.outputAt k = groupByte (b.operand.sshiftRight (7 * k)) true

/-- A running decoder: fewer groups than its cap, the accumulator below bit 7n, the mask at bit 7n, no output. -/
structure Block.DecoderLoop (b : Block) (cap : Nat) : Prop where
  nbytes_lt : b.status.nbytes.toNat < cap
  acc_lt    : b.acc.toNat < 2 ^ (7 * b.status.nbytes.toNat)
  mask_eq   : b.mask = ONES <<< (7 * b.status.nbytes.toNat)
  obuf_zero : b.obuf = Vector.replicate 10 0

/-- A running in-memory decoder: the accumulator is the sum of IBUF's groups so far, each with its continuation
bit set. -/
structure Block.InputLoop (b : Block) : Prop where
  acc_eq : b.acc = groupSum b.inputAt b.status.nbytes.toNat
  conts  : ∀ k, k < b.status.nbytes.toNat → contBit (b.inputAt k) = true

/-- A busy block has cleared outputs and a running one a legal operation with its loop invariant (R24, R90,
R97). -/
structure Block.Running (b : Block) : Prop where
  result_zero : b.status.busy = true → b.result = 0
  err_none    : b.status.busy = true → b.status.err = .none
  caphit_off  : b.status.busy = true → b.status.caphit = false
  op_legal    : b.phase = .run → kindField b.op ≠ 3
  encu        : b.phase = .run → b.op = opcode .encu → b.EncuLoop
  encs        : b.phase = .run → b.op = opcode .encs → b.EncsLoop
  unsigned    : b.phase = .run → unsignedDecoder b.op = true → b.DecoderLoop Config.capU
  signed      : b.phase = .run → signedDecoder b.op = true → b.DecoderLoop Config.capS
  input       : b.phase = .run → readsInput b.op = true → b.InputLoop

/-- The invariant of the machine: R48, the legal values of ILEN (R34), the loop invariant of the running operation,
and FAULTED only under `P_READS_EOI = fault` (R157). -/
structure State.Inv (s : State) : Prop where
  r48     : s.blk.R48
  ilen    : s.blk.ilen.toNat ≤ 16
  running : s.blk.Running
  faulted : s.blk.phase = .faulted → s.readsEoi = .fault

end Sys2Proof.Machine
end

