-- ==== Sys2Proof/Certificates/Slice0/Obligations.lean ====
section
/-! DEFINITION. The statements for the provers. Each docstring names the rule of spec/ it formalises. -/

open Sys2Proof Sys2Proof.Machine

/-! ## Encodings -/

/-- R76, R75: a word spells the command of its bits w[2:0], whatever bits 63..3 are, and no command exactly where
w[1:0] = 3; the decoder gives back every command it encodes. -/
def Obligations.CommandWordsDecodeByBitsTwoToZero : Prop :=
  (∀ i : Instr, decode (encode i) = .ok i) ∧
  (∀ w : U64,
    (decode w = .ok .encu ↔ w &&& 7 = 0) ∧ (decode w = .ok .decu ↔ w &&& 7 = 1) ∧
    (decode w = .ok .readu ↔ w &&& 7 = 2) ∧ (decode w = .ok .encs ↔ w &&& 7 = 4) ∧
    (decode w = .ok .decs ↔ w &&& 7 = 5) ∧ (decode w = .ok .reads ↔ w &&& 7 = 6)) ∧
  (∀ w : U64, (∀ i : Instr, decode w ≠ .ok i) ↔ w.getLsbD 0 = true ∧ w.getLsbD 1 = true)

/-- R76, R75, R77: the command words of the opcode map, written out. -/
def Obligations.CommandWordsWrittenOut : Prop :=
  decode 0x0#64 = .ok .encu ∧ decode 0x1#64 = .ok .decu ∧ decode 0x2#64 = .ok .readu ∧
  decode 0x4#64 = .ok .encs ∧ decode 0x5#64 = .ok .decs ∧ decode 0x6#64 = .ok .reads ∧
  decode 0x3#64 = .error (.illegalOp 3) ∧ decode 0x7#64 = .error (.illegalOp 7) ∧
  decode 0xFFFFFFFFFFFFFFF8#64 = .ok .encu ∧ decode 0xB#64 = .error (.illegalOp 3)

/-- R21: the index map and the register names agree both ways, and the reserved indices are exactly 0x05–0x0F and
0x2A–0xFF. -/
def Obligations.RegisterIndexMapRoundTrips : Prop :=
  (∀ idx : BitVec 8, (regAt idx).wf = true ∧ (regAt idx).index = idx) ∧
  (∀ r : Reg, r.wf = true → regAt r.index = r) ∧
  (∀ idx : BitVec 8, regAt idx = .reserved idx ↔
    (0x05 ≤ idx.toNat ∧ idx.toNat ≤ 0x0F) ∨ (0x2A ≤ idx.toNat ∧ idx.toNat ≤ 0xFF))

/-- R79: the code of every host action is well formed and decodes to it, and exactly the well-formed codes decode
(the treatment of unused fields and of other codes is the model's, log 14). -/
def Obligations.HostActionCodesRoundTrip : Prop :=
  (∀ a : HostAction, (encodeAction a).wf = true ∧ decodeAction (encodeAction a) = .ok a) ∧
  (∀ c : ActionCode, c.wf = true ↔ ∃ a, decodeAction c = .ok a) ∧
  (∀ idx w b, (encodeAction (.rd idx)).kind = 0 ∧ (encodeAction (.wr idx w)).kind = 1 ∧
    (encodeAction (.push b)).kind = 2 ∧ (encodeAction .close).kind = 3 ∧ (encodeAction .reset).kind = 4)

/-- R80: LDIB of at most 16 bytes writes byte k to IBUF[k] and then their number to ILEN; the six command names are
CMD writes of their words. -/
def Obligations.PseudoInstructionsExpand : Prop :=
  (∀ bytes : List U8, bytes.length ≤ 16 →
    (AsmItem.ldib bytes).expand =
      (List.range bytes.length).map (fun k => Turn.host (.wr (BitVec.ofNat 8 (0x10 + k)) ((bytes.getD k 0).setWidth 64)))
        ++ [.host (.wr 0x04 (BitVec.ofNat 64 bytes.length))]) ∧
  (AsmItem.op .encu).expand = [.host (.wr 0x00 0x0)] ∧ (AsmItem.op .decu).expand = [.host (.wr 0x00 0x1)] ∧
  (AsmItem.op .readu).expand = [.host (.wr 0x00 0x2)] ∧ (AsmItem.op .encs).expand = [.host (.wr 0x00 0x4)] ∧
  (AsmItem.op .decs).expand = [.host (.wr 0x00 0x5)] ∧ (AsmItem.op .reads).expand = [.host (.wr 0x00 0x6)]

/-! ## Steps -/

/-- R91: where the next turn writes to CMD a word that spells a command, the step is exec of that command, the turn
taken from the list. -/
def Obligations.StepRunsTheDecodedCommand : Prop :=
  ∀ (s : State) (w : U64) (rest : List Turn) (i : Instr),
    s.turns = .host (.wr 0x00 w) :: rest → decode w = .ok i → step s = exec i { s with turns := rest }

/-- A table word placed for the next step runs as the command the decoder reads from it, on the state it was placed
in (log 10). -/
def Obligations.PlacedTableWordRunsNext : Prop :=
  ∀ (s : State) (nbits w : Nat) (i : Instr),
    decodeTableWord nbits w = some i → step (s.withFetchWord nbits w) = exec i s

/-- The step is the next turn's: the engine's where it has a step (and it passes where it has none, log 1), the host
action's, or the engine's alone where no turn is left. -/
def Obligations.StepTakesTheNextTurn : Prop :=
  ∀ (s : State) (rest : List Turn),
    (s.turns = [] → engineEnabled s = true → step s = engineStep s) ∧
    (s.turns = .engine :: rest → engineEnabled s = true → step s = engineStep { s with turns := rest }) ∧
    (s.turns = .engine :: rest → engineEnabled s = false → step s = .next { s with turns := rest }) ∧
    (∀ a, s.turns = .host a :: rest → step s = hostAct a { s with turns := rest })

/-- R95, R96: in a state of the invariant a step stops exactly where no turn is left and the engine has no step; it
never refuses. -/
def Obligations.StepStopsOnlyWhereNoAgentHasAStep : Prop :=
  ∀ s : State, s.Inv →
    ((∃ f, step s = .fault f) ↔ s.turns = [] ∧ engineEnabled s = false) ∧ (∀ r, step s ≠ .refused r)

/-- R80: a poll of WAIT returns STATUS to the host; it ends the loop exactly where DONE or FAULT is 1, and otherwise
the engine has a turn before the next poll (the engine's turn is the model's choice, log 3). -/
def Obligations.WaitPollsUntilDoneOrFault : Prop :=
  ∀ (s : State) (rest : List Turn), s.turns = .wait :: rest →
    (s.blk.status.done = true ∨ s.blk.status.fault = true →
      step s = .next { s with turns := rest, answers := s.answers ++ [s.blk.status.word] }) ∧
    (s.blk.status.done = false → s.blk.status.fault = false →
      step s = .next { s with turns := .engine :: .wait :: rest, answers := s.answers ++ [s.blk.status.word] })

/-! ## Starting an operation -/

/-- R93 with R110, R130, R114, R120, R134, R140: a CMD write on an idle block whose word spells a command is exec of
it, w[2:0] being its opcode, and each of the six answers the started state. -/
def Obligations.CommandsStartOnAnIdleBlock : Prop :=
  ∀ s : State, s.blk.status.busy = false →
    let started (op : BitVec 3) : Block :=
      { s.blk with op := op, result := 0, obuf := Vector.replicate 10 0, phase := .run,
                   status := { s.blk.status with busy := true, done := false, caphit := false, err := .none, nbytes := 0 } }
    (∀ w i, decode w = .ok i → w.setWidth 3 = opcode i ∧ hostAct (.wr 0x00 w) s = exec i s) ∧
    exec .encu s = .next { s with blk := { started 0 with v := s.blk.operand, rem := s.blk.operand >>> 7 } } ∧
    exec .encs s = .next { s with blk :=
      { started 4 with v := s.blk.operand, rem := s.blk.operand.sshiftRight 7,
                       endv := if s.blk.operand.getLsbD 63 = true then ONES else 0 } } ∧
    exec .decu s = .next { s with blk := { started 1 with acc := 0, mask := ONES } } ∧
    exec .readu s = .next { s with blk := { started 2 with acc := 0, mask := ONES } } ∧
    exec .decs s = .next { s with blk := { started 5 with acc := 0, mask := ONES } } ∧
    exec .reads s = .next { s with blk := { started 6 with acc := 0, mask := ONES } }

/-- R94, R154: a CMD write with w[1:0] = 3 on an idle block completes at once with ILLEGAL_OP, changes nothing else,
and no engine step follows. -/
def Obligations.IllegalCommandCompletesAtOnce : Prop :=
  ∀ (s : State) (w : U64), s.blk.status.busy = false → w.getLsbD 0 = true → w.getLsbD 1 = true →
    let t : State := { s with blk :=
      { s.blk with result := 0, obuf := Vector.replicate 10 0,
                   status := { s.blk.status with caphit := false, nbytes := 0, err := .illegalOp, done := true } } }
    hostAct (.wr 0x00 w) s = .next t ∧ (s.blk.phase = .idle → engineEnabled t = false)

/-- R92: a host write while BUSY changes HAZARD and nothing else, for every index, CMD included; so does each of the
six commands. -/
def Obligations.WriteWhileBusySetsHazardOnly : Prop :=
  ∀ s : State, s.blk.status.busy = true →
    (∀ idx w, hostAct (.wr idx w) s =
      .next { s with blk := { s.blk with status := { s.blk.status with hazard := true } } }) ∧
    (∀ i : Instr, exec i s = .next { s with blk := { s.blk with status := { s.blk.status with hazard := true } } })

/-- R91: what a host write does on an idle block, index by index; none of them changes HAZARD. -/
def Obligations.IdleWritesFollowTheIndexMap : Prop :=
  ∀ (s : State) (w : U64), s.blk.status.busy = false →
    (∀ i : Instr, decode w = .ok i → hostAct (.wr 0x00 w) s = exec i s) ∧
    ((∀ i : Instr, decode w ≠ .ok i) → hostAct (.wr 0x00 w) s = .next { s with blk := s.blk.illegalStart }) ∧
    hostAct (.wr 0x01 w) s = .next { s with blk := { s.blk with operand := w } } ∧
    hostAct (.wr 0x04 w) s = .next { s with blk := { s.blk with ilen := BitVec.ofNat 5 (min w.toNat 16) } } ∧
    (∀ i : Fin 16, hostAct (.wr (BitVec.ofNat 8 (0x10 + i.val)) w) s =
      .next { s with blk := { s.blk with ibuf := s.blk.ibuf.set i (w.setWidth 8) } }) ∧
    (∀ idx : BitVec 8, idx.toNat ≠ 0x00 → idx.toNat ≠ 0x01 → idx.toNat ≠ 0x04 →
      ¬(0x10 ≤ idx.toNat ∧ idx.toNat ≤ 0x1F) → hostAct (.wr idx w) s = .next s) ∧
    (∀ (idx : BitVec 8) (t : State), hostAct (.wr idx w) s = .next t →
      t.blk.status.hazard = s.blk.status.hazard)

/-- R90: a read returns the register, zero-extended, and changes no state of the block or of the source. -/
def Obligations.ReadsReturnTheRegisterAndChangeNothing : Prop :=
  ∀ s : State,
    let returns (idx : BitVec 8) (w : U64) : Prop :=
      hostAct (.rd idx) s = .next { s with answers := s.answers ++ [w] }
    returns 0x00 0 ∧ returns 0x01 s.blk.operand ∧ returns 0x02 s.blk.result ∧ returns 0x03 s.blk.status.word ∧
    returns 0x04 (s.blk.ilen.setWidth 64) ∧
    (∀ i : Fin 16, returns (BitVec.ofNat 8 (0x10 + i.val)) (s.blk.ibuf[i].setWidth 64)) ∧
    (∀ i : Fin 10, returns (BitVec.ofNat 8 (0x20 + i.val)) (s.blk.obuf[i].setWidth 64)) ∧
    (∀ idx : BitVec 8, (0x05 ≤ idx.toNat ∧ idx.toNat ≤ 0x0F) ∨ 0x2A ≤ idx.toNat → returns idx 0)

/-- R25, R33, R151: the layout of STATUS as the host reads it. -/
def Obligations.StatusWordLayout : Prop :=
  ∀ st : Status,
    st.word.getLsbD 0 = st.busy ∧ st.word.getLsbD 1 = st.done ∧ st.word.getLsbD 2 = st.caphit ∧
    st.word.getLsbD 3 = st.hazard ∧ st.word.getLsbD 4 = st.fault ∧ st.word.extractLsb' 5 3 = 0 ∧
    st.word.extractLsb' 8 4 = (match st.err with | .none => 0 | .unexpectedEoi => 1 | .truncated => 2 | .illegalOp => 3) ∧
    st.word.extractLsb' 12 4 = st.nbytes ∧ st.word.extractLsb' 16 48 = 0

/-! ## Reset and the byte source -/

/-- R170, R47: power-on and the host action RESET, in any phase, leave every host-visible register and every STATUS
field 0 and the phase IDLE; RESET leaves the byte source. What they leave in the hidden registers is unspecified
(log 5, log 6) and not said. -/
def Obligations.ResetGivesTheResetValues : Prop :=
  let fresh (b : Block) : Prop :=
    b.phase = .idle ∧ b.operand = 0 ∧ b.result = 0 ∧ b.ilen = 0 ∧
    (∀ i : Fin 16, b.ibuf[i] = 0) ∧ (∀ i : Fin 10, b.obuf[i] = 0) ∧
    b.status = { busy := false, done := false, caphit := false, hazard := false, fault := false, err := .none, nbytes := 0 }
  fresh State.reset.blk ∧
  (∀ s : State, ∃ t, hostAct .reset s = .next t ∧ fresh t.blk ∧
    t.src = s.src ∧ t.turns = s.turns ∧ t.answers = s.answers ∧ t.readsEoi = s.readsEoi)

/-- R56: PUSH appends to an open source and has no effect on a closed one, CLOSE closes it; neither touches
anything else, HAZARD included; and no step opens a closed source again. -/
def Obligations.PushAppendsAndCloseCloses : Prop :=
  (∀ (s : State) (b : U8),
    (s.src.closed = false → hostAct (.push b) s = .next { s with src := ⟨s.src.queue ++ [b], false⟩ }) ∧
    (s.src.closed = true → hostAct (.push b) s = .next s) ∧
    hostAct .close s = .next { s with src := ⟨s.src.queue, true⟩ }) ∧
  (∀ s t : State, step s = .next t → s.src.closed = true → t.src.closed = true)

/-- R57: what `SrcRead()` answers; a READ whose read cannot be answered holds, and PUSH or CLOSE lifts the hold. -/
def Obligations.SourceReadAnswers : Prop :=
  (∀ b rest closed, Source.read ⟨b :: rest, closed⟩ = some (.byte b, ⟨rest, closed⟩)) ∧
  Source.read ⟨[], true⟩ = some (.eoi, ⟨[], true⟩) ∧
  Source.read ⟨[], false⟩ = none ∧
  (∀ s : State, s.blk.phase = .run → s.blk.op = opcode .readu ∨ s.blk.op = opcode .reads →
    (engineEnabled s = true ↔ ∃ r, s.src.read = some r) ∧
    (∀ b t, hostAct (.push b) s = .next t → s.src.closed = false → engineEnabled t = true) ∧
    (∀ t, hostAct .close s = .next t → engineEnabled t = true))

/-- R59: once the byte source is closed and empty, every later read of it answers EOI, whatever steps are between. -/
def Obligations.EndOfInputPersists : Prop :=
  ∀ (k : Nat) (s t : State), s.src.closed = true → s.src.queue = [] → Sys2Proof.core.run k s = .next t →
    t.src.read = some (.eoi, t.src)

/-! ## Engine steps -/

/-- R96: when the engine has a step; a held READ stays held until the host pushes a byte or closes the source, and a
RESET ends the operation. -/
def Obligations.EngineHasAStepExactlyWhen : Prop :=
  (∀ s : State, engineEnabled s = true ↔
    s.blk.phase = .run ∧
      (s.blk.op = opcode .encu ∨ s.blk.op = opcode .decu ∨ s.blk.op = opcode .encs ∨ s.blk.op = opcode .decs ∨
        ((s.blk.op = opcode .readu ∨ s.blk.op = opcode .reads) ∧ (s.src.queue ≠ [] ∨ s.src.closed = true)))) ∧
  (∀ s t : State, s.Inv → s.blk.phase = .run → engineEnabled s = false → step s = .next t →
    (engineEnabled t = true → (∃ b, s.turns.head? = some (.host (.push b))) ∨ s.turns.head? = some (.host .close)) ∧
    (t.blk.phase ≠ .run ↔ s.turns.head? = some (.host .reset)))

/-- R111: one iteration of ENCU. -/
def Obligations.EncuIteration : Prop :=
  ∀ (s : State) (hn : s.blk.status.nbytes.toNat < 10), s.blk.op = opcode .encu →
    let put (b : U8) : Block :=
      { s.blk with obuf := s.blk.obuf.set s.blk.status.nbytes.toNat b hn,
                   status := { s.blk.status with nbytes := s.blk.status.nbytes + 1 } }
    (s.blk.rem ≠ 0 → engineStep s = .next { s with blk :=
      { put (((s.blk.v &&& 0x7F) ||| 0x80).setWidth 8) with v := s.blk.rem, rem := s.blk.rem >>> 7 } }) ∧
    (s.blk.rem = 0 →
      let b := put ((s.blk.v &&& 0x7F).setWidth 8)
      engineStep s = .next { s with blk :=
        { b with result := 0, phase := .idle, status := { b.status with busy := false, done := true, err := .none } } })

/-- R131: one iteration of ENCS. -/
def Obligations.EncsIteration : Prop :=
  ∀ (s : State) (hn : s.blk.status.nbytes.toNat < 10), s.blk.op = opcode .encs →
    let more : Prop := s.blk.rem ≠ s.blk.endv ∨ s.blk.rem.getLsbD 0 ≠ s.blk.v.getLsbD 6
    let put (b : U8) : Block :=
      { s.blk with obuf := s.blk.obuf.set s.blk.status.nbytes.toNat b hn,
                   status := { s.blk.status with nbytes := s.blk.status.nbytes + 1 },
                   v := s.blk.rem, rem := s.blk.rem.sshiftRight 7 }
    (more → engineStep s = .next { s with blk := put (((s.blk.v &&& 0x7F) ||| 0x80).setWidth 8) }) ∧
    (¬more →
      let b := put ((s.blk.v &&& 0x7F).setWidth 8)
      engineStep s = .next { s with blk :=
        { b with result := 0, phase := .idle, status := { b.status with busy := false, done := true, err := .none } } })

/-- R98, R72: GroupAccumulate; with the accumulator below bit 7n and n ≤ 8 its addition gives what OR gives, and the
accumulator stays below bit 7(n + 1). -/
def Obligations.GroupAccumulateStep : Prop :=
  ∀ (b : Block) (x : U8),
    let n := b.status.nbytes.toNat
    b.accumulate x =
      { b with acc := b.acc + ((x &&& 0x7F).setWidth 64 <<< (7 * n)), mask := b.mask <<< 7,
               status := { b.status with nbytes := b.status.nbytes + 1 } } ∧
    (n ≤ 8 → b.acc.toNat < 2 ^ (7 * n) →
      (b.accumulate x).acc = b.acc ||| ((x &&& 0x7F).setWidth 64 <<< (7 * n)) ∧
      (b.accumulate x).acc.toNat < 2 ^ (7 * (n + 1)))

/-- R115, R117, R118: one iteration of DECU, over the accumulation of R98. -/
def Obligations.DecuIteration : Prop :=
  ∀ s : State, s.blk.op = opcode .decu →
    let n := s.blk.status.nbytes
    (s.blk.ilen.toNat ≤ n.toNat → engineStep s = .next { s with blk :=
      { s.blk with result := 0, phase := .idle,
                   status := { s.blk.status with err := .truncated, busy := false, done := true } } }) ∧
    (n.toNat < s.blk.ilen.toNat → ∀ x, s.blk.ibuf[n.toNat]? = some x →
      let b := s.blk.accumulate x
      let ended (caphit : Bool) : Block :=
        { b with result := b.acc, phase := .idle,
                 status := { b.status with err := .none, busy := false, done := true, caphit := caphit } }
      engineStep s = .next { s with blk :=
        (if x.getLsbD 7 = false then ended b.status.caphit
         else if b.status.nbytes = 9 then ended true else b) })

/-- R135, R136, R138, R139: one iteration of DECS, over the accumulation of R98. -/
def Obligations.DecsIteration : Prop :=
  ∀ s : State, s.blk.op = opcode .decs →
    let n := s.blk.status.nbytes
    (s.blk.ilen.toNat ≤ n.toNat → engineStep s = .next { s with blk :=
      { s.blk with result := 0, phase := .idle,
                   status := { s.blk.status with err := .truncated, busy := false, done := true } } }) ∧
    (n.toNat < s.blk.ilen.toNat → ∀ x, s.blk.ibuf[n.toNat]? = some x →
      let b := s.blk.accumulate x
      let r := if b.acc.getLsbD (7 * b.status.nbytes.toNat - 1) = true then b.acc + b.mask else b.acc
      let ended (caphit : Bool) : Block :=
        { b with acc := r, result := r, phase := .idle,
                 status := { b.status with err := .none, busy := false, done := true, caphit := caphit } }
      engineStep s = .next { s with blk :=
        (if x.getLsbD 7 = false then ended b.status.caphit
         else if b.status.nbytes = 5 then ended true else b) })

/-- R121, R122, R118: one iteration of READU, over the accumulation of R98. -/
def Obligations.ReaduIteration : Prop :=
  ∀ s : State, s.blk.op = opcode .readu →
    (s.src = ⟨[], true⟩ → engineStep s = .next { s with blk :=
      { s.blk with result := 0, phase := .idle,
                   status := { s.blk.status with err := .unexpectedEoi, busy := false, done := true } } }) ∧
    (∀ x rest closed, s.src = ⟨x :: rest, closed⟩ →
      let b := s.blk.accumulate x
      let ended (caphit : Bool) : Block :=
        { b with result := b.acc, phase := .idle,
                 status := { b.status with err := .none, busy := false, done := true, caphit := caphit } }
      engineStep s = .next { s with src := ⟨rest, closed⟩, blk :=
        (if x.getLsbD 7 = false then ended b.status.caphit
         else if b.status.nbytes = 9 then ended true else b) })

/-- R141, R136, R139, R146: one iteration of READS, over the accumulation of R98, under both values of
`P_READS_EOI`. -/
def Obligations.ReadsIteration : Prop :=
  ∀ s : State, s.blk.op = opcode .reads →
    (s.src = ⟨[], true⟩ → s.readsEoi = .error → engineStep s = .next { s with blk :=
      { s.blk with result := 0, phase := .idle,
                   status := { s.blk.status with err := .unexpectedEoi, busy := false, done := true } } }) ∧
    (s.src = ⟨[], true⟩ → s.readsEoi = .fault → engineStep s = .next { s with blk :=
      { s.blk with phase := .faulted, status := { s.blk.status with fault := true } } }) ∧
    (∀ x rest closed, s.src = ⟨x :: rest, closed⟩ →
      let b := s.blk.accumulate x
      let r := if b.acc.getLsbD (7 * b.status.nbytes.toNat - 1) = true then b.acc + b.mask else b.acc
      let ended (caphit : Bool) : Block :=
        { b with acc := r, result := r, phase := .idle,
                 status := { b.status with err := .none, busy := false, done := true, caphit := caphit } }
      engineStep s = .next { s with src := ⟨rest, closed⟩, blk :=
        (if x.getLsbD 7 = false then ended b.status.caphit
         else if b.status.nbytes = 5 then ended true else b) })

/-- R136: SignFinish; after n groups it completes with the sign extension of acc from bit 7n − 1, its addition is OR,
and the bit it tests is what `((mask >>s 1) & acc) ≠ 0` tests. -/
def Obligations.SignFinishIsSignExtension : Prop :=
  ∀ b : Block,
    let n := b.status.nbytes.toNat
    b.signFinish = (if b.acc.getLsbD (7 * n - 1) = true
      then ({ b with acc := b.acc + b.mask } : Block).finish .none (b.acc + b.mask) else b.finish .none b.acc) ∧
    (1 ≤ n → n ≤ 9 → b.acc.toNat < 2 ^ (7 * n) → b.mask = ONES <<< (7 * n) →
      b.signFinish.Completed .none (sext (7 * n) b.acc) b.status.caphit n ∧
      b.acc + b.mask = b.acc ||| b.mask ∧
      (b.acc.getLsbD (7 * n - 1) = true ↔ b.mask.sshiftRight 1 &&& b.acc ≠ 0))

/-- R99: what Finish writes; and outside a run the engine has no step until a CMD write of a command starts one. -/
def Obligations.FinishCompletesTheOperation : Prop :=
  (∀ (b : Block) (err : ErrCode) (r : U64), b.finish err r =
    { b with result := r, phase := .idle, status := { b.status with err := err, busy := false, done := true } }) ∧
  (∀ s t : State, s.Inv → s.blk.phase = .idle → step s = .next t →
    t.blk.phase = .idle ∧ engineEnabled t = false ∨
      ∃ w i, s.turns.head? = some (.host (.wr 0x00 w)) ∧ decode w = .ok i ∧ t.blk.phase = .run)

/-! ## Rules of the whole machine -/

/-- The invariant (R48 and the loop invariants) holds after power-on. -/
def Obligations.InvHoldsAtReset : Prop := State.reset.Inv

/-- R48: from every state of the invariant, whatever the next turn is, a step gives a state of the invariant. -/
def Obligations.EveryStepKeepsInv : Prop :=
  ∀ s t : State, s.Inv → step s = .next t → t.Inv

/-- R29, R30, R161: HAZARD and FAULT, once set, are cleared by no step but the host's RESET. -/
def Obligations.HazardAndFaultAreSticky : Prop :=
  ∀ s t : State, step s = .next t → s.turns.head? ≠ some (.host .reset) →
    (s.blk.status.hazard = true → t.blk.status.hazard = true) ∧
    (s.blk.status.fault = true → t.blk.status.fault = true)

/-- R100, R157: only READS at end-of-input under `P_READS_EOI = fault` enters FAULTED, as Fault says; there the
engine has no step, a host write sets HAZARD and changes nothing else, and no step but the host's RESET leaves. -/
def Obligations.FaultedIsEnteredByReadsAndLeftByReset : Prop :=
  ∀ s t : State, s.Inv → step s = .next t →
    (s.blk.phase ≠ .faulted → t.blk.phase = .faulted →
      s.blk.op = opcode .reads ∧ s.readsEoi = .fault ∧ s.src = ⟨[], true⟩ ∧
      t.blk = { s.blk with phase := .faulted, status := { s.blk.status with fault := true } } ∧
      t.blk.status.busy = true ∧ t.blk.status.done = false ∧ t.blk.result = 0 ∧ t.blk.status.err = .none) ∧
    (s.blk.phase = .faulted →
      engineEnabled s = false ∧
      (s.turns.head? ≠ some (.host .reset) → ∃ h, t.blk = { s.blk with status := { s.blk.status with hazard := h } }) ∧
      (∀ idx w, s.turns.head? = some (.host (.wr idx w)) → t.blk.status.hazard = true) ∧
      (s.turns.head? = some (.host .reset) → t.blk.phase = .idle ∧ t.src = s.src))

/-- R23, R52, R58, R39, R42: what an engine step never changes, and what it may take from the byte source: only READU
and READS consume, and only the head byte. -/
def Obligations.EngineStepFrame : Prop :=
  ∀ s t : State, engineStep s = .next t →
    s.KeepsInputs t ∧ t.blk.op = s.blk.op ∧ t.blk.endv = s.blk.endv ∧ t.src.closed = s.src.closed ∧
    (t.src.queue = s.src.queue ∨
      ((s.blk.op = opcode .readu ∨ s.blk.op = opcode .reads) ∧ ∃ b, s.src.queue = b :: t.src.queue)) ∧
    (s.blk.op ≠ opcode .encu → s.blk.op ≠ opcode .encs →
      t.blk.obuf = s.blk.obuf ∧ t.blk.v = s.blk.v ∧ t.blk.rem = s.blk.rem) ∧
    (s.blk.op = opcode .encu ∨ s.blk.op = opcode .encs →
      t.blk.acc = s.blk.acc ∧ t.blk.mask = s.blk.mask ∧ t.blk.status.caphit = s.blk.status.caphit ∧
      (∀ k, k ≠ s.blk.status.nbytes.toNat → t.blk.outputAt k = s.blk.outputAt k))

/-- R64, R176: once an operation has completed, its outputs and all of the block stay as they are until the host
writes a register or resets. -/
def Obligations.CompletedOutputsStayUntilTheHostActs : Prop :=
  ∀ s t : State, s.Inv → s.blk.status.done = true → step s = .next t →
    (∀ idx w, s.turns.head? ≠ some (.host (.wr idx w))) → s.turns.head? ≠ some (.host .reset) → t.blk = s.blk

/-- R173, R24, R90: while an operation runs, RESULT reads 0, DONE is 0, ERR is NONE and CAPHIT 0, OBUF is 0 from
NBYTES on, and a decoder's OBUF is all 0. -/
def Obligations.OutputsWhileBusyArePartial : Prop :=
  ∀ s : State, s.Inv → s.blk.status.busy = true →
    s.blk.readReg .result = 0 ∧ s.blk.status.done = false ∧ s.blk.status.err = .none ∧ s.blk.status.caphit = false ∧
    (∀ i : Fin 10, s.blk.status.nbytes.toNat ≤ i.val → s.blk.readReg (.obuf i) = 0) ∧
    (s.blk.phase = .run → s.blk.op ≠ opcode .encu → s.blk.op ≠ opcode .encs →
      ∀ i : Fin 10, s.blk.readReg (.obuf i) = 0)

/-- R102, R92: the engine's steps do not depend on what the host has read, will do, or wrote in vain while busy. -/
def Obligations.HostReadsAndIgnoredWritesDoNotReachTheEngine : Prop :=
  ∀ (k : Nat) (s t : State) (turns : List Turn) (answers : List U64), engineSteps k s = some t →
    engineSteps k { s with turns := turns, answers := answers, blk := s.blk.setHazard } =
      some { t with turns := turns, answers := answers, blk := t.blk.setHazard }

/-- R102, R123: on an open source it does not matter whether the host pushes bytes before or after engine steps that
are enabled without them. -/
def Obligations.EarlyPushesDoNotChangeTheOutcome : Prop :=
  ∀ (k : Nat) (s t : State) (more : List U8), s.src.closed = false → engineSteps k s = some t →
    engineSteps k { s with src := ⟨s.src.queue ++ more, false⟩ } =
      some { t with src := ⟨t.src.queue ++ more, false⟩ }

/-- R103, R178: from every running state of the invariant an operation that needs no byte of an open source ends
within 10, 9 or 5 engine steps. -/
def Obligations.EveryOperationEnds : Prop :=
  ∀ s : State, s.Inv → s.blk.phase = .run → (∃ i, s.blk.op = opcode i ∧ (streams i = true → s.src.closed = true)) →
    ∃ k t, engineSteps k s = some t ∧ t.blk.phase ≠ .run ∧
      s.blk.status.nbytes.toNat + k ≤
        (if unsignedDecoder s.blk.op = true then 9 else if signedDecoder s.blk.op = true then 5 else 10)

/-! ## Closed forms -/

/-- R112, R178: ENCU on an idle block completes after as many engine steps as its encoding has bytes, with the
encoding of OPERAND in OBUF. -/
def Obligations.EncuClosedForm : Prop :=
  ∀ s : State, s.blk.status.busy = false → ∃ u, runsTo .encu s (encULen s.blk.operand) u ∧
    u.blk.Completed .none 0 false (encULen s.blk.operand) ∧
    (∀ k, k < 10 → u.blk.outputAt k = encUByte s.blk.operand k) ∧ s.KeepsInputs u ∧ u.src = s.src

/-- R113: the table of unsigned lengths, and minimality: the last byte's payload is 0 only for 0. -/
def Obligations.UnsignedLengthTable : Prop :=
  ∀ x : U64,
    (encULen x = 1 ↔ x.toNat ≤ 127) ∧
    (∀ k, 2 ≤ k → k ≤ 9 → (encULen x = k ↔ 2 ^ (7 * (k - 1)) ≤ x.toNat ∧ x.toNat ≤ 2 ^ (7 * k) - 1)) ∧
    (encULen x = 10 ↔ 2 ^ 63 ≤ x.toNat) ∧ encULen x ≤ 10 ∧
    (x ≠ 0 → encUByte x (encULen x - 1) &&& 0x7F ≠ 0)

/-- R132, R178: ENCS on an idle block completes after as many engine steps as its encoding has bytes, with the
encoding of OPERAND in OBUF; its length is the least k ≥ 1 with OPERAND in 7k bits of two's complement. -/
def Obligations.EncsClosedForm : Prop :=
  ∀ s : State, s.blk.status.busy = false →
    let x := s.blk.operand
    let L := encSLen x
    (1 ≤ L ∧ -(2 : Int) ^ (7 * L - 1) ≤ x.toInt ∧ x.toInt ≤ 2 ^ (7 * L - 1) - 1 ∧
      ∀ k, 1 ≤ k → -(2 : Int) ^ (7 * k - 1) ≤ x.toInt → x.toInt ≤ 2 ^ (7 * k - 1) - 1 → L ≤ k) ∧
    ∃ u, runsTo .encs s L u ∧ u.blk.Completed .none 0 false L ∧
      (∀ k, k < 10 → u.blk.outputAt k = encSByte x k) ∧ s.KeepsInputs u ∧ u.src = s.src

/-- R133: the table of signed lengths. -/
def Obligations.SignedLengthTable : Prop :=
  ∀ x : U64,
    encSLen x ≤ 10 ∧
    (encSLen x = 1 ↔ -64 ≤ x.toInt ∧ x.toInt ≤ 63) ∧
    (∀ k, 2 ≤ k → k ≤ 9 → (encSLen x = k ↔
      (-(2 : Int) ^ (7 * k - 1) ≤ x.toInt ∧ x.toInt ≤ 2 ^ (7 * k - 1) - 1) ∧
      ¬(-(2 : Int) ^ (7 * (k - 1) - 1) ≤ x.toInt ∧ x.toInt ≤ 2 ^ (7 * (k - 1) - 1) - 1))) ∧
    (encSLen x = 10 ↔ x.toInt ≤ -(2 : Int) ^ 62 - 1 ∨ (2 : Int) ^ 62 ≤ x.toInt)

/-- R70: byte k of an encoding holds value bits 7k+6..7k and the continuation flag on every byte but the last; in the
signed one bit 6 of the last byte is the sign. -/
def Obligations.EncodedBytesCarryTheirGroups : Prop :=
  ∀ (x : U64) (k : Nat),
    (k < encULen x → (∀ j, j < 7 → (encUByte x k).getLsbD j = x.getLsbD (7 * k + j)) ∧
      (contBit (encUByte x k) = true ↔ k + 1 < encULen x)) ∧
    (k < encSLen x → (∀ j, j < 7 → (encSByte x k).getLsbD j = (x.sshiftRight (7 * k)).getLsbD j) ∧
      (contBit (encSByte x k) = true ↔ k + 1 < encSLen x)) ∧
    (encSByte x (encSLen x - 1)).getLsbD 6 = x.getLsbD 63

/-- R116, R178: DECU on an idle block, over the bytes of IBUF. -/
def Obligations.DecuClosedForm : Prop :=
  ∀ s : State, s.blk.status.busy = false →
    let f := s.blk.inputAt
    let len := s.blk.ilen.toNat
    (runsOut 9 f len → ∃ u, runsTo .decu s (len + 1) u ∧ u.blk.Completed .truncated 0 false len ∧
      u.blk.obuf = Vector.replicate 10 0 ∧ s.KeepsInputs u ∧ u.src = s.src) ∧
    (¬runsOut 9 f len →
      let L := varintLen 9 f
      L ≤ len ∧ (contBit (f (L - 1)) = true → L = 9) ∧
      ∃ u, runsTo .decu s L u ∧ u.blk.Completed .none (groupSum f L) (contBit (f (L - 1))) L ∧
        u.blk.obuf = Vector.replicate 10 0 ∧ s.KeepsInputs u ∧ u.src = s.src)

/-- R137, R178: DECS on an idle block, over the bytes of IBUF. -/
def Obligations.DecsClosedForm : Prop :=
  ∀ s : State, s.blk.status.busy = false →
    let f := s.blk.inputAt
    let len := s.blk.ilen.toNat
    (runsOut 5 f len → ∃ u, runsTo .decs s (len + 1) u ∧ u.blk.Completed .truncated 0 false len ∧
      u.blk.obuf = Vector.replicate 10 0 ∧ s.KeepsInputs u ∧ u.src = s.src) ∧
    (¬runsOut 5 f len →
      let L := varintLen 5 f
      L ≤ len ∧ (contBit (f (L - 1)) = true → L = 5) ∧
      ∃ u, runsTo .decs s L u ∧ u.blk.Completed .none (sext (7 * L) (groupSum f L)) (contBit (f (L - 1))) L ∧
        u.blk.obuf = Vector.replicate 10 0 ∧ s.KeepsInputs u ∧ u.src = s.src)

/-- R123, R178, R96: READU on an idle block, over the bytes of the source: at end-of-input of a closed source, held
after the last byte of an open one, and otherwise. -/
def Obligations.ReaduClosedForm : Prop :=
  ∀ s : State, s.blk.status.busy = false →
    let q := s.src.queue
    let f := byteAt q
    (runsOut 9 f q.length → s.src.closed = true → ∃ u, runsTo .readu s (q.length + 1) u ∧
      u.blk.Completed .unexpectedEoi 0 false q.length ∧ u.src = ⟨[], true⟩ ∧
      u.blk.obuf = Vector.replicate 10 0 ∧ s.KeepsInputs u) ∧
    (runsOut 9 f q.length → s.src.closed = false → ∃ u, runsTo .readu s q.length u ∧ u.blk.phase = .run ∧
      u.blk.status.busy = true ∧ u.blk.status.nbytes.toNat = q.length ∧ u.blk.acc = groupSum f q.length ∧
      u.src = ⟨[], false⟩ ∧ engineEnabled u = false ∧ u.blk.obuf = Vector.replicate 10 0 ∧ s.KeepsInputs u) ∧
    (¬runsOut 9 f q.length →
      let L := varintLen 9 f
      L ≤ q.length ∧ ∃ u, runsTo .readu s L u ∧
        u.blk.Completed .none (groupSum f L) (contBit (f (L - 1))) L ∧ u.src = ⟨q.drop L, s.src.closed⟩ ∧
        u.blk.obuf = Vector.replicate 10 0 ∧ s.KeepsInputs u)

/-- R142, R146, R178, R96: READS on an idle block, over the bytes of the source: at end-of-input of a closed source
under each value of `P_READS_EOI`, held after the last byte of an open one, and otherwise. -/
def Obligations.ReadsClosedForm : Prop :=
  ∀ s : State, s.blk.status.busy = false →
    let q := s.src.queue
    let f := byteAt q
    (runsOut 5 f q.length → s.src.closed = true → ∃ u, runsTo .reads s (q.length + 1) u ∧
      (s.readsEoi = .error → u.blk.Completed .unexpectedEoi 0 false q.length) ∧
      (s.readsEoi = .fault → u.blk.Stopped q.length) ∧ u.src = ⟨[], true⟩ ∧
      u.blk.obuf = Vector.replicate 10 0 ∧ s.KeepsInputs u) ∧
    (runsOut 5 f q.length → s.src.closed = false → ∃ u, runsTo .reads s q.length u ∧ u.blk.phase = .run ∧
      u.blk.status.busy = true ∧ u.blk.status.nbytes.toNat = q.length ∧ u.blk.acc = groupSum f q.length ∧
      u.src = ⟨[], false⟩ ∧ engineEnabled u = false ∧ u.blk.obuf = Vector.replicate 10 0 ∧ s.KeepsInputs u) ∧
    (¬runsOut 5 f q.length →
      let L := varintLen 5 f
      L ≤ q.length ∧ ∃ u, runsTo .reads s L u ∧
        u.blk.Completed .none (sext (7 * L) (groupSum f L)) (contBit (f (L - 1))) L ∧
        u.src = ⟨q.drop L, s.src.closed⟩ ∧ u.blk.obuf = Vector.replicate 10 0 ∧ s.KeepsInputs u)

/-- R124, C2: ENCU and then DECU on the copied bytes, or READU on a source that holds exactly them, gives back every
value below 2^63; above, bit 63 is lost, CAPHIT is 1 and READU leaves the tenth byte. -/
def Obligations.UnsignedRoundTrip : Prop :=
  ∀ s : State, s.blk.status.busy = false →
    let x := s.blk.operand
    let L := encULen x
    let y := if x.toNat < 2 ^ 63 then x else x &&& 0x7FFFFFFFFFFFFFFF
    let cap := decide (2 ^ 63 ≤ x.toNat)
    (2 ^ 63 ≤ x.toNat → L = 10) ∧ ∃ u, runsTo .encu s L u ∧
      (∀ s' : State, s'.blk.status.busy = false → s'.blk.ilen.toNat = L →
        (∀ k, k < L → s'.blk.inputAt k = u.blk.outputAt k) →
        ∃ u', runsTo .decu s' (min L 9) u' ∧ u'.blk.Completed .none y cap (min L 9)) ∧
      (∀ s' : State, s'.blk.status.busy = false → s'.src.queue = (List.range L).map u.blk.outputAt →
        ∃ u', runsTo .readu s' (min L 9) u' ∧ u'.blk.Completed .none y cap (min L 9) ∧
          u'.src.queue = if x.toNat < 2 ^ 63 then [] else [0x01])

/-- R144, C3: ENCS and then DECS on the copied bytes, or READS on a source that holds exactly them, gives back every
value of [−2^34, 2^34 − 1]; outside it the low 35 bits sign-extended, which is another value, with CAPHIT; and no
result of a signed decoder lies outside that range. -/
def Obligations.SignedRoundTrip : Prop :=
  (∀ s : State, s.blk.status.busy = false →
    let x := s.blk.operand
    let L := encSLen x
    let small : Prop := -(2 : Int) ^ 34 ≤ x.toInt ∧ x.toInt ≤ 2 ^ 34 - 1
    ∃ u, runsTo .encs s L u ∧ (small ↔ L ≤ 5) ∧ (small ↔ sext 35 x = x) ∧
      (∀ s' : State, s'.blk.status.busy = false → s'.blk.ilen.toNat = L →
        (∀ k, k < L → s'.blk.inputAt k = u.blk.outputAt k) →
        ∃ u', runsTo .decs s' (min L 5) u' ∧ u'.blk.Completed .none (sext 35 x) (decide (5 < L)) (min L 5)) ∧
      (∀ s' : State, s'.blk.status.busy = false → s'.src.queue = (List.range L).map u.blk.outputAt →
        ∃ u', runsTo .reads s' (min L 5) u' ∧ u'.blk.Completed .none (sext 35 x) (decide (5 < L)) (min L 5) ∧
          (small → u'.src.queue = []))) ∧
  (∀ s t : State, s.Inv → s.blk.phase = .run → signedDecoder s.blk.op = true → engineStep s = .next t →
    -(2 : Int) ^ 34 ≤ t.blk.result.toInt ∧ t.blk.result.toInt ≤ 2 ^ 34 - 1)

/-- R125: three READUs on a closed source that holds the encodings of two values below 2^63 give the first, the
second, and then UNEXPECTED_EOI with RESULT 0 and NBYTES 0. -/
def Obligations.ConcatenatedStreamDecodes : Prop :=
  ∀ (s : State) (x1 x2 : U64), x1.toNat < 2 ^ 63 → x2.toNat < 2 ^ 63 → s.blk.status.busy = false →
    s.src = ⟨(List.range (encULen x1)).map (encUByte x1) ++ (List.range (encULen x2)).map (encUByte x2), true⟩ →
    ∃ u1 u2 u3, runsTo .readu s (encULen x1) u1 ∧ u1.blk.Completed .none x1 false (encULen x1) ∧
      runsTo .readu u1 (encULen x2) u2 ∧ u2.blk.Completed .none x2 false (encULen x2) ∧
      runsTo .readu u2 1 u3 ∧ u3.blk.Completed .unexpectedEoi 0 false 0
end

