-- ==== Sys2Proof/Laws/State.lean ====
section
/-! SUPPORT. One lemma per field per update of the state, of STATUS and of a reset block (10_state.md), so that
no later proof unfolds a record update. -/

namespace Sys2Proof.Machine

/-! ## The state, one agent at a time -/

@[simp] theorem State.withBlk_blk (s : State) (b : Block) : (s.withBlk b).blk = b := rfl
@[simp] theorem State.withBlk_src (s : State) (b : Block) : (s.withBlk b).src = s.src := rfl
@[simp] theorem State.withBlk_turns (s : State) (b : Block) : (s.withBlk b).turns = s.turns := rfl
@[simp] theorem State.withBlk_answers (s : State) (b : Block) : (s.withBlk b).answers = s.answers := rfl
@[simp] theorem State.withBlk_resets (s : State) (b : Block) : (s.withBlk b).resets = s.resets := rfl
@[simp] theorem State.withBlk_readsEoi (s : State) (b : Block) : (s.withBlk b).readsEoi = s.readsEoi := rfl
@[simp] theorem State.withSrc_blk (s : State) (src : Source) : (s.withSrc src).blk = s.blk := rfl
@[simp] theorem State.withSrc_src (s : State) (src : Source) : (s.withSrc src).src = src := rfl
@[simp] theorem State.withSrc_turns (s : State) (src : Source) : (s.withSrc src).turns = s.turns := rfl
@[simp] theorem State.withSrc_answers (s : State) (src : Source) : (s.withSrc src).answers = s.answers := rfl
@[simp] theorem State.withSrc_resets (s : State) (src : Source) : (s.withSrc src).resets = s.resets := rfl
@[simp] theorem State.withSrc_readsEoi (s : State) (src : Source) : (s.withSrc src).readsEoi = s.readsEoi := rfl
@[simp] theorem State.withTurns_blk (s : State) (ts : List Turn) : (s.withTurns ts).blk = s.blk := rfl
@[simp] theorem State.withTurns_src (s : State) (ts : List Turn) : (s.withTurns ts).src = s.src := rfl
@[simp] theorem State.withTurns_turns (s : State) (ts : List Turn) : (s.withTurns ts).turns = ts := rfl
@[simp] theorem State.withTurns_answers (s : State) (ts : List Turn) : (s.withTurns ts).answers = s.answers := rfl
@[simp] theorem State.withTurns_resets (s : State) (ts : List Turn) : (s.withTurns ts).resets = s.resets := rfl
@[simp] theorem State.withTurns_readsEoi (s : State) (ts : List Turn) : (s.withTurns ts).readsEoi = s.readsEoi := rfl
@[simp] theorem State.answer_blk (s : State) (w : U64) : (s.answer w).blk = s.blk := rfl
@[simp] theorem State.answer_src (s : State) (w : U64) : (s.answer w).src = s.src := rfl
@[simp] theorem State.answer_turns (s : State) (w : U64) : (s.answer w).turns = s.turns := rfl
@[simp] theorem State.answer_answers (s : State) (w : U64) : (s.answer w).answers = s.answers ++ [w] := rfl
@[simp] theorem State.answer_resets (s : State) (w : U64) : (s.answer w).resets = s.resets := rfl
@[simp] theorem State.answer_readsEoi (s : State) (w : U64) : (s.answer w).readsEoi = s.readsEoi := rfl
@[simp] theorem State.hostReset_blk (s : State) : (s.hostReset).blk = Block.hostReset s.resets := rfl
@[simp] theorem State.hostReset_src (s : State) : (s.hostReset).src = s.src := rfl
@[simp] theorem State.hostReset_turns (s : State) : (s.hostReset).turns = s.turns := rfl
@[simp] theorem State.hostReset_answers (s : State) : (s.hostReset).answers = s.answers := rfl
@[simp] theorem State.hostReset_resets (s : State) : (s.hostReset).resets = s.resets + 1 := rfl
@[simp] theorem State.hostReset_readsEoi (s : State) : (s.hostReset).readsEoi = s.readsEoi := rfl

/-- Giving a state its own turns back changes nothing. -/
@[simp] theorem State.withTurns_self (s : State) : s.withTurns s.turns = s := rfl

/-- Of two updates of the turns the second counts. -/
@[simp] theorem State.withTurns_withTurns (s : State) (ts us : List Turn) :
    (s.withTurns ts).withTurns us = s.withTurns us := rfl

/-! ## STATUS -/

@[simp] theorem Status.started_busy (s : Status) : (s.started).busy = true := rfl
@[simp] theorem Status.started_done (s : Status) : (s.started).done = false := rfl
@[simp] theorem Status.started_caphit (s : Status) : (s.started).caphit = false := rfl
@[simp] theorem Status.started_hazard (s : Status) : (s.started).hazard = s.hazard := rfl
@[simp] theorem Status.started_fault (s : Status) : (s.started).fault = s.fault := rfl
@[simp] theorem Status.started_err (s : Status) : (s.started).err = .none := rfl
@[simp] theorem Status.started_nbytes (s : Status) : (s.started).nbytes = 0 := rfl
@[simp] theorem Status.illegal_busy (s : Status) : (s.illegal).busy = s.busy := rfl
@[simp] theorem Status.illegal_done (s : Status) : (s.illegal).done = true := rfl
@[simp] theorem Status.illegal_caphit (s : Status) : (s.illegal).caphit = false := rfl
@[simp] theorem Status.illegal_hazard (s : Status) : (s.illegal).hazard = s.hazard := rfl
@[simp] theorem Status.illegal_fault (s : Status) : (s.illegal).fault = s.fault := rfl
@[simp] theorem Status.illegal_err (s : Status) : (s.illegal).err = .illegalOp := rfl
@[simp] theorem Status.illegal_nbytes (s : Status) : (s.illegal).nbytes = 0 := rfl
@[simp] theorem Status.finished_busy (s : Status) (e : ErrCode) : (s.finished e).busy = false := rfl
@[simp] theorem Status.finished_done (s : Status) (e : ErrCode) : (s.finished e).done = true := rfl
@[simp] theorem Status.finished_caphit (s : Status) (e : ErrCode) : (s.finished e).caphit = s.caphit := rfl
@[simp] theorem Status.finished_hazard (s : Status) (e : ErrCode) : (s.finished e).hazard = s.hazard := rfl
@[simp] theorem Status.finished_fault (s : Status) (e : ErrCode) : (s.finished e).fault = s.fault := rfl
@[simp] theorem Status.finished_err (s : Status) (e : ErrCode) : (s.finished e).err = e := rfl
@[simp] theorem Status.finished_nbytes (s : Status) (e : ErrCode) : (s.finished e).nbytes = s.nbytes := rfl
@[simp] theorem Status.stopped_busy (s : Status) : (s.stopped).busy = s.busy := rfl
@[simp] theorem Status.stopped_done (s : Status) : (s.stopped).done = s.done := rfl
@[simp] theorem Status.stopped_caphit (s : Status) : (s.stopped).caphit = s.caphit := rfl
@[simp] theorem Status.stopped_hazard (s : Status) : (s.stopped).hazard = s.hazard := rfl
@[simp] theorem Status.stopped_fault (s : Status) : (s.stopped).fault = true := rfl
@[simp] theorem Status.stopped_err (s : Status) : (s.stopped).err = s.err := rfl
@[simp] theorem Status.stopped_nbytes (s : Status) : (s.stopped).nbytes = s.nbytes := rfl
@[simp] theorem Status.hazardous_busy (s : Status) : (s.hazardous).busy = s.busy := rfl
@[simp] theorem Status.hazardous_done (s : Status) : (s.hazardous).done = s.done := rfl
@[simp] theorem Status.hazardous_caphit (s : Status) : (s.hazardous).caphit = s.caphit := rfl
@[simp] theorem Status.hazardous_hazard (s : Status) : (s.hazardous).hazard = true := rfl
@[simp] theorem Status.hazardous_fault (s : Status) : (s.hazardous).fault = s.fault := rfl
@[simp] theorem Status.hazardous_err (s : Status) : (s.hazardous).err = s.err := rfl
@[simp] theorem Status.hazardous_nbytes (s : Status) : (s.hazardous).nbytes = s.nbytes := rfl
@[simp] theorem Status.capped_busy (s : Status) : (s.capped).busy = s.busy := rfl
@[simp] theorem Status.capped_done (s : Status) : (s.capped).done = s.done := rfl
@[simp] theorem Status.capped_caphit (s : Status) : (s.capped).caphit = true := rfl
@[simp] theorem Status.capped_hazard (s : Status) : (s.capped).hazard = s.hazard := rfl
@[simp] theorem Status.capped_fault (s : Status) : (s.capped).fault = s.fault := rfl
@[simp] theorem Status.capped_err (s : Status) : (s.capped).err = s.err := rfl
@[simp] theorem Status.capped_nbytes (s : Status) : (s.capped).nbytes = s.nbytes := rfl
@[simp] theorem Status.counted_busy (s : Status) : (s.counted).busy = s.busy := rfl
@[simp] theorem Status.counted_done (s : Status) : (s.counted).done = s.done := rfl
@[simp] theorem Status.counted_caphit (s : Status) : (s.counted).caphit = s.caphit := rfl
@[simp] theorem Status.counted_hazard (s : Status) : (s.counted).hazard = s.hazard := rfl
@[simp] theorem Status.counted_fault (s : Status) : (s.counted).fault = s.fault := rfl
@[simp] theorem Status.counted_err (s : Status) : (s.counted).err = s.err := rfl
@[simp] theorem Status.counted_nbytes (s : Status) : (s.counted).nbytes = s.nbytes + 1 := rfl
@[simp] theorem Status.reset_busy : Status.reset.busy = false := rfl
@[simp] theorem Status.reset_done : Status.reset.done = false := rfl
@[simp] theorem Status.reset_caphit : Status.reset.caphit = false := rfl
@[simp] theorem Status.reset_hazard : Status.reset.hazard = false := rfl
@[simp] theorem Status.reset_fault : Status.reset.fault = false := rfl
@[simp] theorem Status.reset_err : Status.reset.err = .none := rfl
@[simp] theorem Status.reset_nbytes : Status.reset.nbytes = 0 := rfl

/-! ## The block after a reset (R47) -/

@[simp] theorem Block.hostReset_operand (n : Nat) : (Block.hostReset n).operand = 0 := rfl
@[simp] theorem Block.hostReset_result (n : Nat) : (Block.hostReset n).result = 0 := rfl
@[simp] theorem Block.hostReset_status (n : Nat) : (Block.hostReset n).status = Status.reset := rfl
@[simp] theorem Block.hostReset_ilen (n : Nat) : (Block.hostReset n).ilen = 0 := rfl
@[simp] theorem Block.hostReset_ibuf (n : Nat) : (Block.hostReset n).ibuf = Vector.replicate 16 0 := rfl
@[simp] theorem Block.hostReset_obuf (n : Nat) : (Block.hostReset n).obuf = Vector.replicate 10 0 := rfl
@[simp] theorem Block.hostReset_phase (n : Nat) : (Block.hostReset n).phase = .idle := rfl

end Sys2Proof.Machine
end

