-- ==== Sys2Proof/Laws/Fields.lean ====
section
/-! SUPPORT. One lemma per field per procedure of the block (40_operation_lifecycle.md R93–R100 and the Init and
advance parts of the families), each true by definition. -/

namespace Sys2Proof.Machine

@[simp] theorem Block.start_operand (b : Block) (op : BitVec 3) : (b.start op).operand = b.operand := rfl
@[simp] theorem Block.start_result (b : Block) (op : BitVec 3) : (b.start op).result = 0 := rfl
@[simp] theorem Block.start_status (b : Block) (op : BitVec 3) : (b.start op).status = b.status.started := rfl
@[simp] theorem Block.start_ilen (b : Block) (op : BitVec 3) : (b.start op).ilen = b.ilen := rfl
@[simp] theorem Block.start_ibuf (b : Block) (op : BitVec 3) : (b.start op).ibuf = b.ibuf := rfl
@[simp] theorem Block.start_obuf (b : Block) (op : BitVec 3) : (b.start op).obuf = Vector.replicate 10 0 := rfl
@[simp] theorem Block.start_phase (b : Block) (op : BitVec 3) : (b.start op).phase = .run := rfl
@[simp] theorem Block.start_op (b : Block) (op : BitVec 3) : (b.start op).op = op := rfl
@[simp] theorem Block.start_v (b : Block) (op : BitVec 3) : (b.start op).v = b.v := rfl
@[simp] theorem Block.start_rem (b : Block) (op : BitVec 3) : (b.start op).rem = b.rem := rfl
@[simp] theorem Block.start_endv (b : Block) (op : BitVec 3) : (b.start op).endv = b.endv := rfl
@[simp] theorem Block.start_acc (b : Block) (op : BitVec 3) : (b.start op).acc = b.acc := rfl
@[simp] theorem Block.start_mask (b : Block) (op : BitVec 3) : (b.start op).mask = b.mask := rfl
@[simp] theorem Block.illegalStart_operand (b : Block) : (b.illegalStart).operand = b.operand := rfl
@[simp] theorem Block.illegalStart_result (b : Block) : (b.illegalStart).result = 0 := rfl
@[simp] theorem Block.illegalStart_status (b : Block) : (b.illegalStart).status = b.status.illegal := rfl
@[simp] theorem Block.illegalStart_ilen (b : Block) : (b.illegalStart).ilen = b.ilen := rfl
@[simp] theorem Block.illegalStart_ibuf (b : Block) : (b.illegalStart).ibuf = b.ibuf := rfl
@[simp] theorem Block.illegalStart_obuf (b : Block) : (b.illegalStart).obuf = Vector.replicate 10 0 := rfl
@[simp] theorem Block.illegalStart_phase (b : Block) : (b.illegalStart).phase = b.phase := rfl
@[simp] theorem Block.illegalStart_op (b : Block) : (b.illegalStart).op = b.op := rfl
@[simp] theorem Block.illegalStart_v (b : Block) : (b.illegalStart).v = b.v := rfl
@[simp] theorem Block.illegalStart_rem (b : Block) : (b.illegalStart).rem = b.rem := rfl
@[simp] theorem Block.illegalStart_endv (b : Block) : (b.illegalStart).endv = b.endv := rfl
@[simp] theorem Block.illegalStart_acc (b : Block) : (b.illegalStart).acc = b.acc := rfl
@[simp] theorem Block.illegalStart_mask (b : Block) : (b.illegalStart).mask = b.mask := rfl
@[simp] theorem Block.clearAcc_operand (b : Block) : (b.clearAcc).operand = b.operand := rfl
@[simp] theorem Block.clearAcc_result (b : Block) : (b.clearAcc).result = b.result := rfl
@[simp] theorem Block.clearAcc_status (b : Block) : (b.clearAcc).status = b.status := rfl
@[simp] theorem Block.clearAcc_ilen (b : Block) : (b.clearAcc).ilen = b.ilen := rfl
@[simp] theorem Block.clearAcc_ibuf (b : Block) : (b.clearAcc).ibuf = b.ibuf := rfl
@[simp] theorem Block.clearAcc_obuf (b : Block) : (b.clearAcc).obuf = b.obuf := rfl
@[simp] theorem Block.clearAcc_phase (b : Block) : (b.clearAcc).phase = b.phase := rfl
@[simp] theorem Block.clearAcc_op (b : Block) : (b.clearAcc).op = b.op := rfl
@[simp] theorem Block.clearAcc_v (b : Block) : (b.clearAcc).v = b.v := rfl
@[simp] theorem Block.clearAcc_rem (b : Block) : (b.clearAcc).rem = b.rem := rfl
@[simp] theorem Block.clearAcc_endv (b : Block) : (b.clearAcc).endv = b.endv := rfl
@[simp] theorem Block.clearAcc_acc (b : Block) : (b.clearAcc).acc = 0 := rfl
@[simp] theorem Block.clearAcc_mask (b : Block) : (b.clearAcc).mask = ONES := rfl
@[simp] theorem Block.initEncu_operand (b : Block) : (b.initEncu).operand = b.operand := rfl
@[simp] theorem Block.initEncu_result (b : Block) : (b.initEncu).result = b.result := rfl
@[simp] theorem Block.initEncu_status (b : Block) : (b.initEncu).status = b.status := rfl
@[simp] theorem Block.initEncu_ilen (b : Block) : (b.initEncu).ilen = b.ilen := rfl
@[simp] theorem Block.initEncu_ibuf (b : Block) : (b.initEncu).ibuf = b.ibuf := rfl
@[simp] theorem Block.initEncu_obuf (b : Block) : (b.initEncu).obuf = b.obuf := rfl
@[simp] theorem Block.initEncu_phase (b : Block) : (b.initEncu).phase = b.phase := rfl
@[simp] theorem Block.initEncu_op (b : Block) : (b.initEncu).op = b.op := rfl
@[simp] theorem Block.initEncu_v (b : Block) : (b.initEncu).v = b.operand := rfl
@[simp] theorem Block.initEncu_rem (b : Block) : (b.initEncu).rem = b.operand >>> 7 := rfl
@[simp] theorem Block.initEncu_endv (b : Block) : (b.initEncu).endv = b.endv := rfl
@[simp] theorem Block.initEncu_acc (b : Block) : (b.initEncu).acc = b.acc := rfl
@[simp] theorem Block.initEncu_mask (b : Block) : (b.initEncu).mask = b.mask := rfl
@[simp] theorem Block.initEncs_operand (b : Block) : (b.initEncs).operand = b.operand := rfl
@[simp] theorem Block.initEncs_result (b : Block) : (b.initEncs).result = b.result := rfl
@[simp] theorem Block.initEncs_status (b : Block) : (b.initEncs).status = b.status := rfl
@[simp] theorem Block.initEncs_ilen (b : Block) : (b.initEncs).ilen = b.ilen := rfl
@[simp] theorem Block.initEncs_ibuf (b : Block) : (b.initEncs).ibuf = b.ibuf := rfl
@[simp] theorem Block.initEncs_obuf (b : Block) : (b.initEncs).obuf = b.obuf := rfl
@[simp] theorem Block.initEncs_phase (b : Block) : (b.initEncs).phase = b.phase := rfl
@[simp] theorem Block.initEncs_op (b : Block) : (b.initEncs).op = b.op := rfl
@[simp] theorem Block.initEncs_v (b : Block) : (b.initEncs).v = b.operand := rfl
@[simp] theorem Block.initEncs_rem (b : Block) : (b.initEncs).rem = b.operand.sshiftRight 7 := rfl
@[simp] theorem Block.initEncs_endv (b : Block) : (b.initEncs).endv = if b.operand.getLsbD 63 then ONES else 0 := rfl
@[simp] theorem Block.initEncs_acc (b : Block) : (b.initEncs).acc = b.acc := rfl
@[simp] theorem Block.initEncs_mask (b : Block) : (b.initEncs).mask = b.mask := rfl
@[simp] theorem Block.finish_operand (b : Block) (e : ErrCode) (w : U64) : (b.finish e w).operand = b.operand := rfl
@[simp] theorem Block.finish_result (b : Block) (e : ErrCode) (w : U64) : (b.finish e w).result = w := rfl
@[simp] theorem Block.finish_status (b : Block) (e : ErrCode) (w : U64) : (b.finish e w).status = b.status.finished e := rfl
@[simp] theorem Block.finish_ilen (b : Block) (e : ErrCode) (w : U64) : (b.finish e w).ilen = b.ilen := rfl
@[simp] theorem Block.finish_ibuf (b : Block) (e : ErrCode) (w : U64) : (b.finish e w).ibuf = b.ibuf := rfl
@[simp] theorem Block.finish_obuf (b : Block) (e : ErrCode) (w : U64) : (b.finish e w).obuf = b.obuf := rfl
@[simp] theorem Block.finish_phase (b : Block) (e : ErrCode) (w : U64) : (b.finish e w).phase = .idle := rfl
@[simp] theorem Block.finish_op (b : Block) (e : ErrCode) (w : U64) : (b.finish e w).op = b.op := rfl
@[simp] theorem Block.finish_v (b : Block) (e : ErrCode) (w : U64) : (b.finish e w).v = b.v := rfl
@[simp] theorem Block.finish_rem (b : Block) (e : ErrCode) (w : U64) : (b.finish e w).rem = b.rem := rfl
@[simp] theorem Block.finish_endv (b : Block) (e : ErrCode) (w : U64) : (b.finish e w).endv = b.endv := rfl
@[simp] theorem Block.finish_acc (b : Block) (e : ErrCode) (w : U64) : (b.finish e w).acc = b.acc := rfl
@[simp] theorem Block.finish_mask (b : Block) (e : ErrCode) (w : U64) : (b.finish e w).mask = b.mask := rfl
@[simp] theorem Block.faultStop_operand (b : Block) : (b.faultStop).operand = b.operand := rfl
@[simp] theorem Block.faultStop_result (b : Block) : (b.faultStop).result = b.result := rfl
@[simp] theorem Block.faultStop_status (b : Block) : (b.faultStop).status = b.status.stopped := rfl
@[simp] theorem Block.faultStop_ilen (b : Block) : (b.faultStop).ilen = b.ilen := rfl
@[simp] theorem Block.faultStop_ibuf (b : Block) : (b.faultStop).ibuf = b.ibuf := rfl
@[simp] theorem Block.faultStop_obuf (b : Block) : (b.faultStop).obuf = b.obuf := rfl
@[simp] theorem Block.faultStop_phase (b : Block) : (b.faultStop).phase = .faulted := rfl
@[simp] theorem Block.faultStop_op (b : Block) : (b.faultStop).op = b.op := rfl
@[simp] theorem Block.faultStop_v (b : Block) : (b.faultStop).v = b.v := rfl
@[simp] theorem Block.faultStop_rem (b : Block) : (b.faultStop).rem = b.rem := rfl
@[simp] theorem Block.faultStop_endv (b : Block) : (b.faultStop).endv = b.endv := rfl
@[simp] theorem Block.faultStop_acc (b : Block) : (b.faultStop).acc = b.acc := rfl
@[simp] theorem Block.faultStop_mask (b : Block) : (b.faultStop).mask = b.mask := rfl
@[simp] theorem Block.accumulate_operand (b : Block) (x : U8) : (b.accumulate x).operand = b.operand := rfl
@[simp] theorem Block.accumulate_result (b : Block) (x : U8) : (b.accumulate x).result = b.result := rfl
@[simp] theorem Block.accumulate_status (b : Block) (x : U8) : (b.accumulate x).status = b.status.counted := rfl
@[simp] theorem Block.accumulate_ilen (b : Block) (x : U8) : (b.accumulate x).ilen = b.ilen := rfl
@[simp] theorem Block.accumulate_ibuf (b : Block) (x : U8) : (b.accumulate x).ibuf = b.ibuf := rfl
@[simp] theorem Block.accumulate_obuf (b : Block) (x : U8) : (b.accumulate x).obuf = b.obuf := rfl
@[simp] theorem Block.accumulate_phase (b : Block) (x : U8) : (b.accumulate x).phase = b.phase := rfl
@[simp] theorem Block.accumulate_op (b : Block) (x : U8) : (b.accumulate x).op = b.op := rfl
@[simp] theorem Block.accumulate_v (b : Block) (x : U8) : (b.accumulate x).v = b.v := rfl
@[simp] theorem Block.accumulate_rem (b : Block) (x : U8) : (b.accumulate x).rem = b.rem := rfl
@[simp] theorem Block.accumulate_endv (b : Block) (x : U8) : (b.accumulate x).endv = b.endv := rfl
@[simp] theorem Block.accumulate_acc (b : Block) (x : U8) : (b.accumulate x).acc = b.acc + (payload x <<< (7 * b.status.nbytes.toNat)) := rfl
@[simp] theorem Block.accumulate_mask (b : Block) (x : U8) : (b.accumulate x).mask = b.mask <<< 7 := rfl
@[simp] theorem Block.capHit_operand (b : Block) : (b.capHit).operand = b.operand := rfl
@[simp] theorem Block.capHit_result (b : Block) : (b.capHit).result = b.result := rfl
@[simp] theorem Block.capHit_status (b : Block) : (b.capHit).status = b.status.capped := rfl
@[simp] theorem Block.capHit_ilen (b : Block) : (b.capHit).ilen = b.ilen := rfl
@[simp] theorem Block.capHit_ibuf (b : Block) : (b.capHit).ibuf = b.ibuf := rfl
@[simp] theorem Block.capHit_obuf (b : Block) : (b.capHit).obuf = b.obuf := rfl
@[simp] theorem Block.capHit_phase (b : Block) : (b.capHit).phase = b.phase := rfl
@[simp] theorem Block.capHit_op (b : Block) : (b.capHit).op = b.op := rfl
@[simp] theorem Block.capHit_v (b : Block) : (b.capHit).v = b.v := rfl
@[simp] theorem Block.capHit_rem (b : Block) : (b.capHit).rem = b.rem := rfl
@[simp] theorem Block.capHit_endv (b : Block) : (b.capHit).endv = b.endv := rfl
@[simp] theorem Block.capHit_acc (b : Block) : (b.capHit).acc = b.acc := rfl
@[simp] theorem Block.capHit_mask (b : Block) : (b.capHit).mask = b.mask := rfl
@[simp] theorem Block.setHazard_operand (b : Block) : (b.setHazard).operand = b.operand := rfl
@[simp] theorem Block.setHazard_result (b : Block) : (b.setHazard).result = b.result := rfl
@[simp] theorem Block.setHazard_status (b : Block) : (b.setHazard).status = b.status.hazardous := rfl
@[simp] theorem Block.setHazard_ilen (b : Block) : (b.setHazard).ilen = b.ilen := rfl
@[simp] theorem Block.setHazard_ibuf (b : Block) : (b.setHazard).ibuf = b.ibuf := rfl
@[simp] theorem Block.setHazard_obuf (b : Block) : (b.setHazard).obuf = b.obuf := rfl
@[simp] theorem Block.setHazard_phase (b : Block) : (b.setHazard).phase = b.phase := rfl
@[simp] theorem Block.setHazard_op (b : Block) : (b.setHazard).op = b.op := rfl
@[simp] theorem Block.setHazard_v (b : Block) : (b.setHazard).v = b.v := rfl
@[simp] theorem Block.setHazard_rem (b : Block) : (b.setHazard).rem = b.rem := rfl
@[simp] theorem Block.setHazard_endv (b : Block) : (b.setHazard).endv = b.endv := rfl
@[simp] theorem Block.setHazard_acc (b : Block) : (b.setHazard).acc = b.acc := rfl
@[simp] theorem Block.setHazard_mask (b : Block) : (b.setHazard).mask = b.mask := rfl
@[simp] theorem Block.addMask_operand (b : Block) : (b.addMask).operand = b.operand := rfl
@[simp] theorem Block.addMask_result (b : Block) : (b.addMask).result = b.result := rfl
@[simp] theorem Block.addMask_status (b : Block) : (b.addMask).status = b.status := rfl
@[simp] theorem Block.addMask_ilen (b : Block) : (b.addMask).ilen = b.ilen := rfl
@[simp] theorem Block.addMask_ibuf (b : Block) : (b.addMask).ibuf = b.ibuf := rfl
@[simp] theorem Block.addMask_obuf (b : Block) : (b.addMask).obuf = b.obuf := rfl
@[simp] theorem Block.addMask_phase (b : Block) : (b.addMask).phase = b.phase := rfl
@[simp] theorem Block.addMask_op (b : Block) : (b.addMask).op = b.op := rfl
@[simp] theorem Block.addMask_v (b : Block) : (b.addMask).v = b.v := rfl
@[simp] theorem Block.addMask_rem (b : Block) : (b.addMask).rem = b.rem := rfl
@[simp] theorem Block.addMask_endv (b : Block) : (b.addMask).endv = b.endv := rfl
@[simp] theorem Block.addMask_acc (b : Block) : (b.addMask).acc = b.acc + b.mask := rfl
@[simp] theorem Block.addMask_mask (b : Block) : (b.addMask).mask = b.mask := rfl
@[simp] theorem Block.finishAcc_operand (b : Block) : (b.finishAcc).operand = b.operand := rfl
@[simp] theorem Block.finishAcc_result (b : Block) : (b.finishAcc).result = b.acc := rfl
@[simp] theorem Block.finishAcc_status (b : Block) : (b.finishAcc).status = b.status.finished .none := rfl
@[simp] theorem Block.finishAcc_ilen (b : Block) : (b.finishAcc).ilen = b.ilen := rfl
@[simp] theorem Block.finishAcc_ibuf (b : Block) : (b.finishAcc).ibuf = b.ibuf := rfl
@[simp] theorem Block.finishAcc_obuf (b : Block) : (b.finishAcc).obuf = b.obuf := rfl
@[simp] theorem Block.finishAcc_phase (b : Block) : (b.finishAcc).phase = .idle := rfl
@[simp] theorem Block.finishAcc_op (b : Block) : (b.finishAcc).op = b.op := rfl
@[simp] theorem Block.finishAcc_v (b : Block) : (b.finishAcc).v = b.v := rfl
@[simp] theorem Block.finishAcc_rem (b : Block) : (b.finishAcc).rem = b.rem := rfl
@[simp] theorem Block.finishAcc_endv (b : Block) : (b.finishAcc).endv = b.endv := rfl
@[simp] theorem Block.finishAcc_acc (b : Block) : (b.finishAcc).acc = b.acc := rfl
@[simp] theorem Block.finishAcc_mask (b : Block) : (b.finishAcc).mask = b.mask := rfl
@[simp] theorem Block.emit_operand (b : Block) (x : U8) (h : b.status.nbytes.toNat < 10) : (b.emit x h).operand = b.operand := rfl
@[simp] theorem Block.emit_result (b : Block) (x : U8) (h : b.status.nbytes.toNat < 10) : (b.emit x h).result = b.result := rfl
@[simp] theorem Block.emit_status (b : Block) (x : U8) (h : b.status.nbytes.toNat < 10) : (b.emit x h).status = b.status.counted := rfl
@[simp] theorem Block.emit_ilen (b : Block) (x : U8) (h : b.status.nbytes.toNat < 10) : (b.emit x h).ilen = b.ilen := rfl
@[simp] theorem Block.emit_ibuf (b : Block) (x : U8) (h : b.status.nbytes.toNat < 10) : (b.emit x h).ibuf = b.ibuf := rfl
@[simp] theorem Block.emit_obuf (b : Block) (x : U8) (h : b.status.nbytes.toNat < 10) : (b.emit x h).obuf = b.obuf.set b.status.nbytes.toNat x h := rfl
@[simp] theorem Block.emit_phase (b : Block) (x : U8) (h : b.status.nbytes.toNat < 10) : (b.emit x h).phase = b.phase := rfl
@[simp] theorem Block.emit_op (b : Block) (x : U8) (h : b.status.nbytes.toNat < 10) : (b.emit x h).op = b.op := rfl
@[simp] theorem Block.emit_v (b : Block) (x : U8) (h : b.status.nbytes.toNat < 10) : (b.emit x h).v = b.v := rfl
@[simp] theorem Block.emit_rem (b : Block) (x : U8) (h : b.status.nbytes.toNat < 10) : (b.emit x h).rem = b.rem := rfl
@[simp] theorem Block.emit_endv (b : Block) (x : U8) (h : b.status.nbytes.toNat < 10) : (b.emit x h).endv = b.endv := rfl
@[simp] theorem Block.emit_acc (b : Block) (x : U8) (h : b.status.nbytes.toNat < 10) : (b.emit x h).acc = b.acc := rfl
@[simp] theorem Block.emit_mask (b : Block) (x : U8) (h : b.status.nbytes.toNat < 10) : (b.emit x h).mask = b.mask := rfl
@[simp] theorem Block.advanceEncu_operand (b : Block) : (b.advanceEncu).operand = b.operand := rfl
@[simp] theorem Block.advanceEncu_result (b : Block) : (b.advanceEncu).result = b.result := rfl
@[simp] theorem Block.advanceEncu_status (b : Block) : (b.advanceEncu).status = b.status := rfl
@[simp] theorem Block.advanceEncu_ilen (b : Block) : (b.advanceEncu).ilen = b.ilen := rfl
@[simp] theorem Block.advanceEncu_ibuf (b : Block) : (b.advanceEncu).ibuf = b.ibuf := rfl
@[simp] theorem Block.advanceEncu_obuf (b : Block) : (b.advanceEncu).obuf = b.obuf := rfl
@[simp] theorem Block.advanceEncu_phase (b : Block) : (b.advanceEncu).phase = b.phase := rfl
@[simp] theorem Block.advanceEncu_op (b : Block) : (b.advanceEncu).op = b.op := rfl
@[simp] theorem Block.advanceEncu_v (b : Block) : (b.advanceEncu).v = b.rem := rfl
@[simp] theorem Block.advanceEncu_rem (b : Block) : (b.advanceEncu).rem = b.rem >>> 7 := rfl
@[simp] theorem Block.advanceEncu_endv (b : Block) : (b.advanceEncu).endv = b.endv := rfl
@[simp] theorem Block.advanceEncu_acc (b : Block) : (b.advanceEncu).acc = b.acc := rfl
@[simp] theorem Block.advanceEncu_mask (b : Block) : (b.advanceEncu).mask = b.mask := rfl
@[simp] theorem Block.advanceEncs_operand (b : Block) : (b.advanceEncs).operand = b.operand := rfl
@[simp] theorem Block.advanceEncs_result (b : Block) : (b.advanceEncs).result = b.result := rfl
@[simp] theorem Block.advanceEncs_status (b : Block) : (b.advanceEncs).status = b.status := rfl
@[simp] theorem Block.advanceEncs_ilen (b : Block) : (b.advanceEncs).ilen = b.ilen := rfl
@[simp] theorem Block.advanceEncs_ibuf (b : Block) : (b.advanceEncs).ibuf = b.ibuf := rfl
@[simp] theorem Block.advanceEncs_obuf (b : Block) : (b.advanceEncs).obuf = b.obuf := rfl
@[simp] theorem Block.advanceEncs_phase (b : Block) : (b.advanceEncs).phase = b.phase := rfl
@[simp] theorem Block.advanceEncs_op (b : Block) : (b.advanceEncs).op = b.op := rfl
@[simp] theorem Block.advanceEncs_v (b : Block) : (b.advanceEncs).v = b.rem := rfl
@[simp] theorem Block.advanceEncs_rem (b : Block) : (b.advanceEncs).rem = b.rem.sshiftRight 7 := rfl
@[simp] theorem Block.advanceEncs_endv (b : Block) : (b.advanceEncs).endv = b.endv := rfl
@[simp] theorem Block.advanceEncs_acc (b : Block) : (b.advanceEncs).acc = b.acc := rfl
@[simp] theorem Block.advanceEncs_mask (b : Block) : (b.advanceEncs).mask = b.mask := rfl

end Sys2Proof.Machine
end

