-- ==== Sys2Proof/Laws/Ops.lean ====
section
/-! SUPPORT. For each shared operation, what it can do, said once: later proofs cite these lemmas and do not
unfold the operation. -/

namespace Sys2Proof.Machine

/-! ## Host writes -/

/-- A write to a busy block (R92). -/
theorem Block.hostWrite_busy {b : Block} (h : b.status.busy = true) (f : Block → Block) :
    b.hostWrite f = b.setHazard := by
  simp [Block.hostWrite, h]

/-- A write to an idle block (R91). -/
theorem Block.hostWrite_idle {b : Block} (h : b.status.busy = false) (f : Block → Block) :
    b.hostWrite f = f b := by
  simp [Block.hostWrite, h]

/-! ## Operands -/

/-- IBUF has no byte n: n ≥ ILEN (R52). -/
theorem Block.inputByte_none {b : Block} :
    b.inputByte = none ↔ b.ilen.toNat ≤ b.status.nbytes.toNat := by
  simp [Block.inputByte]

/-- The byte read from IBUF is byte n, and n < ILEN (R52). -/
theorem Block.inputByte_some {b : Block} {x : U8} (h : b.inputByte = some x) :
    b.status.nbytes.toNat < b.ilen.toNat ∧ x = b.ibuf[b.status.nbytes.toNat]'(b.status.nbytes.isLt) := by
  unfold Block.inputByte at h
  split at h
  · cases h
  · exact ⟨by omega, (Option.some.inj h).symm⟩

/-- Everything `SrcRead()` can answer (R57). -/
theorem Source.read_cases (src : Source) :
    (∃ b rest, src.queue = b :: rest ∧ src.read = some (.byte b, ⟨rest, src.closed⟩)) ∨
    (src.queue = [] ∧ src.closed = true ∧ src.read = some (.eoi, src)) ∨
    (src.queue = [] ∧ src.closed = false ∧ src.read = none) := by
  obtain ⟨q, c⟩ := src
  cases q <;> cases c <;> simp [Source.read]

/-- `SrcRead()` answers exactly where the queue has a byte or the source is closed (R96). -/
theorem Source.canAnswer_iff (src : Source) :
    src.canAnswer = true ↔ src.queue ≠ [] ∨ src.closed = true := by
  obtain ⟨q, c⟩ := src
  cases q <;> simp [Source.canAnswer]

/-- A source that can answer does. -/
theorem Source.read_isSome (src : Source) : src.read.isSome = src.canAnswer := by
  obtain ⟨q, c⟩ := src
  cases q <;> cases c <;> rfl

/-! ## Encoders -/

/-- Emission goes on where n < 10 (R53). -/
theorem emitThen_of_lt {s : State} (h : s.blk.status.nbytes.toNat < 10) (x : U8) (k : Block → Block) :
    emitThen x k s = .next (s.withBlk (k (s.blk.emit x h))) := by
  simp [emitThen, h]

/-- If an emission answers a next state, OBUF[n] was in range and only the block changed. -/
theorem emitThen_next {s t : State} {x : U8} {k : Block → Block} (h : emitThen x k s = .next t) :
    ∃ hn : s.blk.status.nbytes.toNat < 10, t = s.withBlk (k (s.blk.emit x hn)) := by
  by_cases hn : s.blk.status.nbytes.toNat < 10
  · rw [emitThen_of_lt hn] at h
    exact ⟨hn, (Host.Outcome.next.inj h).symm⟩
  · simp [emitThen, hn] at h

/-! ## Decoders -/

/-- The three ways a consumed byte routes (60_exceptions.md R158). -/
theorem Block.consume_cases (b : Block) (cap : Nat) (f : Block → Block) (x : U8) :
    (contBit x = false ∧ b.consume cap f x = f (b.accumulate x)) ∨
    (contBit x = true ∧ (b.accumulate x).status.nbytes.toNat = cap ∧
      b.consume cap f x = f (b.accumulate x).capHit) ∨
    (contBit x = true ∧ (b.accumulate x).status.nbytes.toNat ≠ cap ∧ b.consume cap f x = b.accumulate x) := by
  unfold Block.consume
  by_cases hc : contBit x = false
  · exact .inl ⟨hc, by simp [hc]⟩
  · have hc' : contBit x = true := by simpa using hc
    by_cases hn : (b.accumulate x).status.nbytes.toNat = cap
    · exact .inr (.inl ⟨hc', hn, by simp only [hc', hn]; simp⟩)
    · exact .inr (.inr ⟨hc', hn, by simp only [hc', hn]; simp⟩)

/-- One iteration of an in-memory decoder: TRUNCATED, or the loop body on IBUF[n]. -/
theorem Block.decodeInput_cases (b : Block) (cap : Nat) (f : Block → Block) :
    (b.ilen.toNat ≤ b.status.nbytes.toNat ∧ b.decodeInput cap f = b.finish .truncated 0) ∨
    (b.status.nbytes.toNat < b.ilen.toNat ∧
      b.decodeInput cap f = b.consume cap f (b.ibuf[b.status.nbytes.toNat]'(b.status.nbytes.isLt))) := by
  unfold Block.decodeInput
  cases h : b.inputByte with
  | none => exact .inl ⟨Block.inputByte_none.mp h, rfl⟩
  | some x =>
    obtain ⟨hn, rfl⟩ := Block.inputByte_some h
    exact .inr ⟨hn, rfl⟩

/-- One iteration of a streaming decoder: a byte is consumed, or the source is at its end, or the iteration is
held (R57, R96). -/
theorem decodeStream_cases (cap : Nat) (f e : Block → Block) (s : State) :
    (∃ x rest, s.src.queue = x :: rest ∧
      decodeStream cap f e s = .next ((s.withBlk (s.blk.consume cap f x)).withSrc ⟨rest, s.src.closed⟩)) ∨
    (s.src.queue = [] ∧ s.src.closed = true ∧
      decodeStream cap f e s = .next (s.withBlk (e s.blk))) ∨
    (s.src.queue = [] ∧ s.src.closed = false ∧ decodeStream cap f e s = .fault .readHeld) := by
  unfold decodeStream
  obtain ⟨x, rest, hq, hr⟩ | ⟨hq, hc, hr⟩ | ⟨hq, hc, hr⟩ := Source.read_cases s.src
  · exact .inl ⟨x, rest, hq, by rw [hr]⟩
  · exact .inr (.inl ⟨hq, hc, by rw [hr]; rfl⟩)
  · exact .inr (.inr ⟨hq, hc, by rw [hr]⟩)

/-- SignFinish is `Finish(NONE, acc)`, after the mask is added where the sign bit is set (R136). -/
theorem Block.signFinish_cases (b : Block) :
    (b.acc.getLsbD (7 * b.status.nbytes.toNat - 1) = true ∧ b.signFinish = b.addMask.finishAcc) ∨
    (b.acc.getLsbD (7 * b.status.nbytes.toNat - 1) = false ∧ b.signFinish = b.finishAcc) := by
  unfold Block.signFinish
  cases b.acc.getLsbD (7 * b.status.nbytes.toNat - 1) <;> simp

/-! ## Commands and the opcode map -/

/-- The opcode map gives each command back (R76). -/
@[simp] theorem decodeOp_opcode (i : Instr) : decodeOp (opcode i) = .ok i := by
  cases i <;> rfl

/-- A legal OP is the opcode of the command it spells (R76). -/
theorem eq_opcode_of_decodeOp {op : BitVec 3} {i : Instr} : decodeOp op = .ok i → op = opcode i := by
  revert op
  cases i <;> decide

/-- The opcode map refuses exactly KIND = 3 (R77). -/
theorem decodeOp_error_iff : ∀ op : BitVec 3, decodeOp op = .error (.illegalOp op) ↔ kindField op = 3 := by
  decide

/-- What a command does to an idle block: Start (R93) with the initialisation of its operation. -/
def Block.begun (i : Instr) (b : Block) : Block :=
  match i with
  | .encu => (b.start (opcode .encu)).initEncu
  | .encs => (b.start (opcode .encs)).initEncs
  | .decu => (b.start (opcode .decu)).clearAcc
  | .readu => (b.start (opcode .readu)).clearAcc
  | .decs => (b.start (opcode .decs)).clearAcc
  | .reads => (b.start (opcode .reads)).clearAcc

/-- A command is a host write: Start with its initialisation on an idle block, HAZARD on a busy one. -/
theorem exec_eq_hostWrite (i : Instr) (s : State) :
    exec i s = .next (s.withBlk (s.blk.hostWrite (Block.begun i))) := by
  cases i <;> rfl

/-- What any host write does to an idle block (R91, R93, R94). -/
inductive WriteEffect : (Block → Block) → Prop where
  | command (i : Instr) : WriteEffect (Block.begun i)
  | illegal : WriteEffect Block.illegalStart
  | register (r : Reg) (w : U64) : WriteEffect fun b => b.writeReg r w

/-! ## The engine -/

/-- Where the engine has a step, the phase is RUN and op spells an operation (R96). -/
theorem engineEnabled_run {s : State} (h : engineEnabled s = true) :
    s.blk.phase = .run ∧ ∃ i, s.blk.op = opcode i ∧ (streams i = true → s.src.canAnswer = true) := by
  unfold engineEnabled at h
  split at h
  · cases h
  · cases h
  · rename_i hp
    split at h
    · rename_i i hi
      refine ⟨hp, i, eq_opcode_of_decodeOp hi, fun hs => ?_⟩
      simpa [hs] using h
    · cases h

/-- A running operation is enabled unless it streams from a source that cannot answer (R96). -/
theorem engineEnabled_of_run {s : State} {i : Instr} (hp : s.blk.phase = .run) (ho : s.blk.op = opcode i) :
    engineEnabled s = (!streams i || s.src.canAnswer) := by
  simp [engineEnabled, hp, ho]

/-- Outside RUN the engine has no step (R96). -/
theorem engineEnabled_of_not_run {s : State} (h : s.blk.phase ≠ .run) : engineEnabled s = false := by
  unfold engineEnabled
  split <;> simp_all

/-- The engine step is one iteration of the latched operation (R97). -/
theorem engineStep_of_op {s : State} {i : Instr} (h : s.blk.op = opcode i) : engineStep s = iterate i s := by
  simp [engineStep, h]

/-- Zero engine steps. -/
@[simp] theorem engineSteps_zero (s : State) : engineSteps 0 s = some s := rfl

/-- One engine step and then `k` more. -/
theorem engineSteps_succ {s t : State} (h : engineEnabled s = true) (hs : engineStep s = .next t) (k : Nat) :
    engineSteps (k + 1) s = engineSteps k t := by
  simp [engineSteps, h, hs]

/-- `j + k` engine steps are `j` of them and then `k`. -/
theorem engineSteps_add (j k : Nat) (s : State) :
    engineSteps (j + k) s = (engineSteps j s).bind (engineSteps k) := by
  induction j generalizing s with
  | zero => simp
  | succ j ih =>
    rw [Nat.add_right_comm]
    simp only [engineSteps]
    split
    · cases engineStep s <;> simp [ih]
    · rfl

/-! ## Steps -/

/-- A step with a turn waiting is that turn's. -/
theorem step_of_turn {s : State} {t : Turn} {rest : List Turn} (h : s.turns = t :: rest) :
    step s = takeTurn t (s.withTurns rest) := by
  simp [step, h]

/-- A step with no turn waiting is the engine's. -/
theorem step_of_no_turn {s : State} (h : s.turns = []) : step s = engineAlone s := by
  simp [step, h]

/-- A CMD write of a word that spells a command is that command (R91). -/
theorem hostWrite_cmd {w : U64} {i : Instr} (h : decode w = .ok i) (s : State) :
    hostWrite Reg.cmd.index w s = exec i s := by
  have hr : regAt Reg.cmd.index = .cmd := rfl
  simp only [hostWrite, hr, command, h]

/-- Every host write answers a next state, with one of the effects of R91 on an idle block. -/
theorem hostWrite_cases (idx : BitVec 8) (w : U64) (s : State) :
    ∃ f, WriteEffect f ∧ hostWrite idx w s = .next (s.withBlk (s.blk.hostWrite f)) := by
  unfold hostWrite command
  split
  · split
    · exact ⟨_, .command _, exec_eq_hostWrite _ s⟩
    · exact ⟨_, .illegal, rfl⟩
  · exact ⟨_, .register _ w, rfl⟩

/-- Every host action answers a next state (R95): a host write, a read, an action on the source, or a reset. -/
theorem hostAct_cases (a : HostAction) (s : State) :
    (∃ idx w f, a = .wr idx w ∧ WriteEffect f ∧ hostAct a s = .next (s.withBlk (s.blk.hostWrite f))) ∨
    (∃ idx, a = .rd idx ∧ hostAct a s = .next (hostRead idx s)) ∨
    (∃ b, a = .push b ∧ hostAct a s = .next (s.withSrc (s.src.push b))) ∨
    (a = .close ∧ hostAct a s = .next (s.withSrc s.src.close)) ∨
    (a = .reset ∧ hostAct a s = .next s.hostReset) := by
  cases a with
  | wr idx w =>
    obtain ⟨f, hf, h⟩ := hostWrite_cases idx w s
    exact .inl ⟨idx, w, f, rfl, hf, h⟩
  | rd idx => exact .inr (.inl ⟨idx, rfl, rfl⟩)
  | push b => exact .inr (.inr (.inl ⟨b, rfl, rfl⟩))
  | close => exact .inr (.inr (.inr (.inl ⟨rfl, rfl⟩)))
  | reset => exact .inr (.inr (.inr (.inr ⟨rfl, rfl⟩)))

/-- Everything a step that answers can be (R63): an engine step, a turn of the engine that passes, a host action, or
a poll of WAIT. -/
theorem step_cases {s t : State} (h : step s = .next t) :
    (s.turns = [] ∧ engineEnabled s = true ∧ engineStep s = .next t) ∨
    (∃ rest, s.turns = .engine :: rest ∧ engineEnabled s = true ∧ engineStep (s.withTurns rest) = .next t) ∨
    (∃ rest, s.turns = .engine :: rest ∧ engineEnabled s = false ∧ t = s.withTurns rest) ∨
    (∃ a rest, s.turns = .host a :: rest ∧ hostAct a (s.withTurns rest) = .next t) ∨
    (∃ rest, s.turns = .wait :: rest ∧ t = waitPoll (s.withTurns rest)) := by
  cases ht : s.turns with
  | nil =>
    rw [step_of_no_turn ht, engineAlone] at h
    split at h
    · exact .inl ⟨rfl, ‹_›, h⟩
    · cases h
  | cons u rest =>
    rw [step_of_turn ht] at h
    have hen : engineEnabled (s.withTurns rest) = engineEnabled s := rfl
    cases u with
    | engine =>
      simp only [takeTurn, hen] at h
      split at h
      · exact .inr (.inl ⟨rest, rfl, ‹_›, h⟩)
      · exact .inr (.inr (.inl ⟨rest, rfl, Bool.not_eq_true _ ▸ ‹¬_›, (Host.Outcome.next.inj h).symm⟩))
    | host a => exact .inr (.inr (.inr (.inl ⟨a, rest, rfl, h⟩)))
    | wait => exact .inr (.inr (.inr (.inr ⟨rest, rfl, (Host.Outcome.next.inj h).symm⟩)))

/-- A poll of WAIT reads STATUS and touches neither the block nor the source (R80, R90). -/
theorem waitPoll_frame (s : State) :
    (waitPoll s).blk = s.blk ∧ (waitPoll s).src = s.src ∧ (waitPoll s).resets = s.resets ∧
      (waitPoll s).readsEoi = s.readsEoi := by
  unfold waitPoll
  split <;> simp [hostRead]

end Sys2Proof.Machine
end

