-- ==== Sys2Proof/Laws/Bits.lean ====
section
/-! SUPPORT. The arithmetic of 64-bit patterns the procedures of the block use (00_scope.md R11, R12). -/

namespace Sys2Proof.Machine

/-! ## Counting and accumulating -/

/-- The byte counter counts without wrapping below 15 (R32). -/
theorem toNat_add_one {n : BitVec 4} (h : n.toNat < 15) : (n + 1).toNat = n.toNat + 1 := by
  rw [BitVec.toNat_add]; simp; omega

/-- Adding group n to an accumulator below bit 7n carries nowhere and stays below bit 7(n + 1) (R72, R98). -/
theorem toNat_accum {n : Nat} (hn : n ≤ 8) {a : U64} (ha : a.toNat < 2 ^ (7 * n)) (x : U8) :
    (a + (payload x <<< (7 * n))).toNat = a.toNat + (payload x).toNat * 2 ^ (7 * n) ∧
    a.toNat + (payload x).toNat * 2 ^ (7 * n) < 2 ^ (7 * (n + 1)) := by
  have hp : (payload x).toNat < 128 := by
    unfold payload
    simp only [BitVec.toNat_setWidth, BitVec.toNat_and]
    have := Nat.and_lt_two_pow x.toNat (n := 7) (y := 127) (by decide)
    exact Nat.lt_of_le_of_lt (Nat.mod_le _ _) this
  have h1 : a.toNat + (payload x).toNat * 2 ^ (7 * n) < 2 ^ (7 * (n + 1)) := by
    have : 2 ^ (7 * (n + 1)) = 128 * 2 ^ (7 * n) := by rw [Nat.mul_add, Nat.pow_add]; ring
    rw [this]
    have : (payload x).toNat * 2 ^ (7 * n) ≤ 127 * 2 ^ (7 * n) := Nat.mul_le_mul_right _ (by omega)
    omega
  have h2 : 2 ^ (7 * (n + 1)) ≤ 2 ^ 63 := Nat.pow_le_pow_right (by decide) (by omega)
  refine ⟨?_, h1⟩
  rw [BitVec.toNat_add, BitVec.toNat_shiftLeft, Nat.shiftLeft_eq]
  have h3 : (payload x).toNat * 2 ^ (7 * n) < 2 ^ 64 := by omega
  rw [Nat.mod_eq_of_lt h3, Nat.mod_eq_of_lt (by omega)]

/-- A value below 2^m has no bit from m on. -/
theorem getLsbD_of_lt {a : U64} {m i : Nat} (h : a.toNat < 2 ^ m) (hi : m ≤ i) : a.getLsbD i = false := by
  rw [BitVec.getLsbD]; exact Nat.testBit_lt_two_pow (Nat.lt_of_lt_of_le h (Nat.pow_le_pow_right (by decide) hi))

/-! ## Shifts and the terminal value -/

/-- A logical right shift by 64 or more gives 0 (R12). -/
theorem shiftRight_eq_zero_of_le {x : U64} {k : Nat} (h : 64 ≤ k) : x >>> k = 0 := by
  apply BitVec.eq_of_toNat_eq
  simp [Nat.shiftRight_eq_div_pow]
  exact Nat.lt_of_lt_of_le x.isLt (Nat.pow_le_pow_right (by decide) h)

/-- Every bit of ONES is 1 (R11). -/
theorem ones_getLsbD (i : Nat) : ONES.getLsbD i = decide (i < 64) := by
  rw [show ONES = BitVec.allOnes 64 by decide, BitVec.getLsbD_allOnes]

/-- The bits of the terminal value 0 or ONES (R42). -/
theorem terminal_getLsbD (c : Bool) (i : Nat) :
    (if c then ONES else 0 : U64).getLsbD i = (decide (i < 64) && c) := by
  cases c <;> simp [ones_getLsbD]

/-- The top bit of a 64-bit pattern is bit 63. -/
theorem msb_eq (x : U64) : x.msb = x.getLsbD 63 := by simp [BitVec.msb_eq_getLsbD_last]

/-- An arithmetic right shift by 63 or more gives the terminal of the sign (R12). -/
theorem sshiftRight_of_le {x : U64} {k : Nat} (h : 63 ≤ k) :
    x.sshiftRight k = if x.getLsbD 63 then ONES else 0 := by
  apply BitVec.eq_of_getLsbD_eq
  intro i hi
  rw [terminal_getLsbD, BitVec.getLsbD_sshiftRight, msb_eq]
  by_cases hk : k + i < 64
  · obtain rfl : i = 0 := by omega
    obtain rfl : k = 63 := by omega
    simp
  · simp [hk, hi]

/-- An arithmetic right shift divides the signed value and rounds down (R12). -/
theorem toInt_sshiftRight' (x : U64) (k : Nat) : (x.sshiftRight k).toInt = x.toInt / 2 ^ k := by
  rw [BitVec.toInt_sshiftRight, Int.shiftRight_eq_div_pow]; simp

/-- ENCS stops after group n exactly where the value fits in 7(n + 1) bits of two's complement (R131, R132). -/
theorem noMore_iff (x : U64) (n : Nat) :
    ((x.sshiftRight (7 * (n + 1)) = if x.getLsbD 63 then ONES else 0) ∧
      (x.sshiftRight (7 * (n + 1))).getLsbD 0 = (x.sshiftRight (7 * n)).getLsbD 6) ↔
    fitsSigned x.toInt (n + 1) = true := by
  have key : ((x.sshiftRight (7 * (n + 1)) = if x.getLsbD 63 then ONES else 0) ∧
      (x.sshiftRight (7 * (n + 1))).getLsbD 0 = (x.sshiftRight (7 * n)).getLsbD 6) ↔
      x.sshiftRight (7 * n + 6) = if x.getLsbD 63 then ONES else 0 := by
    constructor
    · rintro ⟨h1, h2⟩
      apply BitVec.eq_of_getLsbD_eq
      intro i hi
      rw [terminal_getLsbD]
      rcases Nat.eq_zero_or_pos i with rfl | hpos
      · rw [h1, terminal_getLsbD] at h2
        rw [BitVec.getLsbD_sshiftRight] at h2 ⊢
        simpa using h2.symm
      · have h3 : (x.sshiftRight (7 * (n + 1))).getLsbD (i - 1) = x.getLsbD 63 := by
          rw [h1, terminal_getLsbD]; simp; omega
        rw [BitVec.getLsbD_sshiftRight, show 7 * (n + 1) + (i - 1) = 7 * n + 6 + i by omega] at h3
        rw [BitVec.getLsbD_sshiftRight, ← h3]
        have : ¬ 64 ≤ i := by omega
        have : ¬ 64 ≤ i - 1 := by omega
        simp [*]
    · intro h
      have hr : x.sshiftRight (7 * (n + 1)) = if x.getLsbD 63 then ONES else 0 := by
        rw [show 7 * (n + 1) = (7 * n + 6) + 1 by omega, BitVec.sshiftRight_add, h]
        cases x.getLsbD 63 <;> decide
      have h6 : (x.sshiftRight (7 * n)).getLsbD 6 = (x.sshiftRight (7 * n + 6)).getLsbD 0 := by
        rw [BitVec.getLsbD_sshiftRight, BitVec.getLsbD_sshiftRight]; simp
      refine ⟨hr, ?_⟩
      rw [h6, h, hr]
  rw [key, ← BitVec.toInt_inj, toInt_sshiftRight']
  have hx : x.getLsbD 63 = decide (x.toInt < 0) := by
    rw [← BitVec.msb_eq_toInt]; simp [BitVec.msb_eq_getLsbD_last]
  have e7 : 7 * (n + 1) - 1 = 7 * n + 6 := by omega
  simp only [fitsSigned, e7, Bool.and_eq_true, decide_eq_true_eq]
  generalize x.toInt = s at *
  have hpos : (0 : Int) < 2 ^ (7 * n + 6) := by positivity
  generalize (2 : Int) ^ (7 * n + 6) = p at *
  rw [hx]
  by_cases hs : s < 0
  · simp only [hs, decide_true, if_true]
    have : ONES.toInt = -1 := by decide
    rw [this]
    constructor
    · intro h
      have := Int.emod_add_mul_ediv s p
      rw [h] at this
      have := Int.emod_nonneg s hpos.ne'
      constructor <;> nlinarith
    · rintro ⟨h1, h2⟩
      rw [Int.ediv_eq_iff_of_pos hpos]
      constructor <;> nlinarith
  · simp only [hs, decide_false, if_false, Bool.false_eq_true]
    have : (0 : U64).toInt = 0 := by decide
    rw [this]
    constructor
    · intro h
      have := Int.emod_add_mul_ediv s p
      rw [h] at this
      have := Int.emod_lt_of_pos s hpos
      constructor <;> nlinarith
    · rintro ⟨h1, h2⟩
      exact Int.ediv_eq_zero_of_lt (by omega) (by omega)

/-! ## Sign extension -/

/-- The bits of a sign extension (R11). -/
theorem sext_getLsbD (n : Nat) (hn : 1 ≤ n) (v : U64) (i : Nat) (hi : i < 64) :
    (sext n v).getLsbD i = if i < n then v.getLsbD i else v.getLsbD (n - 1) := by
  unfold sext
  rw [BitVec.getLsbD_signExtend, BitVec.getLsbD_setWidth]
  have : (v.setWidth n).msb = v.getLsbD (n - 1) := by
    rw [BitVec.msb_eq_getLsbD_last, BitVec.getLsbD_setWidth]; simp; omega
  simp [hi, this]
  split <;> simp [*]

/-- Adding the mask where the sign bit is set sign-extends a value below bit n (R136). -/
theorem add_mask (n : Nat) (h1 : 1 ≤ n) (a : U64) (ha : a.toNat < 2 ^ n) :
    (if a.getLsbD (n - 1) = true then a + (ONES <<< n) else a) = sext n a := by
  have hand : a &&& (ONES <<< n) = 0 := by
    apply BitVec.eq_of_getLsbD_eq
    intro i hi
    rw [BitVec.getLsbD_and, BitVec.getLsbD_shiftLeft]
    by_cases h : i < n
    · simp [h]
    · simp [getLsbD_of_lt ha (by omega : n ≤ i)]
  apply BitVec.eq_of_getLsbD_eq
  intro i hi
  rw [sext_getLsbD n h1 a i hi]
  split
  · rename_i hs
    rw [BitVec.add_eq_or_of_and_eq_zero _ _ hand, BitVec.getLsbD_or, BitVec.getLsbD_shiftLeft, ones_getLsbD]
    by_cases h : i < n
    · simp [h]
    · simp [h, hs, hi]; omega
  · rename_i hs
    by_cases h : i < n
    · simp [h]
    · simp [h]
      rw [getLsbD_of_lt ha (by omega)]
      simpa using hs

end Sys2Proof.Machine
end

