-- ==== Sys2Proof/Laws/Lengths.lean ====
section
/-! SUPPORT. Lengths and bytes of encodings, and lengths of varints under a cap (30_encoding.md R71, R73,
41_unsigned.md R112, R113, 42_signed.md R132, R133). -/

namespace Sys2Proof.Machine

/-! ## Unsigned encodings -/

/-- `bitlen` bounds the value by a power of two (R112). -/
theorem bitlen_le (x k : Nat) : bitlen x ≤ k ↔ x < 2 ^ k := by
  unfold bitlen
  split
  · subst_vars; simp
  · rename_i h
    rw [Nat.succ_le_iff, Nat.log2_lt h]

/-- The unsigned length against a bound (R112). -/
theorem encULen_le {x : U64} {k : Nat} (hk : 1 ≤ k) : encULen x ≤ k ↔ x.toNat < 2 ^ (7 * k) := by
  rw [← bitlen_le]; unfold encULen; omega

/-- An unsigned encoding has a byte. -/
theorem encULen_pos (x : U64) : 1 ≤ encULen x := by unfold encULen; omega

/-- An unsigned encoding has at most ten bytes (R113). -/
theorem encULen_le_ten (x : U64) : encULen x ≤ 10 := (encULen_le (by omega)).mpr (by have := x.isLt; omega)

/-- A logical right shift gives 0 exactly below the power of two. -/
theorem shiftRight_eq_zero_iff (x : U64) (k : Nat) : x >>> k = 0 ↔ x.toNat < 2 ^ k := by
  rw [← BitVec.toNat_inj]; simp [Nat.shiftRight_eq_div_pow]

/-- ENCU goes on after group n exactly where the encoding has a byte n + 1 (R112). -/
theorem encU_more (x : U64) (n : Nat) : x >>> (7 * (n + 1)) ≠ 0 ↔ n + 1 < encULen x := by
  rw [ne_eq, shiftRight_eq_zero_iff, ← encULen_le (by omega)]; omega

/-! ## Signed encodings -/

/-- What fits in fewer bits fits in more. -/
theorem fitsSigned_mono {s : Int} {j k : Nat} (h : fitsSigned s j = true) (hj : 1 ≤ j) (hk : j ≤ k) : fitsSigned s k = true := by
  simp only [fitsSigned, Bool.and_eq_true, decide_eq_true_eq] at *
  have : (2:Int) ^ (7 * j - 1) ≤ 2 ^ (7 * k - 1) := pow_le_pow_right₀ (by norm_num) (by omega)
  omega

/-- Every 64-bit value fits in 70 bits (R133). -/
theorem fitsSigned_ten (x : U64) {k : Nat} (h : 10 ≤ k) : fitsSigned x.toInt k = true := by
  refine fitsSigned_mono (j := 10) ?_ (by omega) h
  have := BitVec.le_toInt x
  have := BitVec.toInt_lt (x := x)
  simp [fitsSigned]; omega

/-- A signed encoding has a byte. -/
theorem encSLen_pos (x : U64) : 1 ≤ encSLen x := by unfold encSLen; split <;> omega

/-- The signed length against a bound (R132). -/
theorem encSLen_le {x : U64} {k : Nat} (hk : 1 ≤ k) : encSLen x ≤ k ↔ fitsSigned x.toInt k = true := by
  unfold encSLen
  split
  · rename_i j hj
    have h1 := List.find?_some hj
    have h2 : ∀ i < j, ¬ fitsSigned x.toInt (i + 1) = true := by
      simpa using (List.find?_range_eq_some.mp hj).2.2
    constructor
    · intro h; exact fitsSigned_mono h1 (by omega) h
    · intro h; by_contra hc
      exact h2 (k - 1) (by omega) (by rwa [show k - 1 + 1 = k by omega])
  · rename_i hn
    simp at hn
    constructor
    · intro h; exact fitsSigned_ten x h
    · intro h; by_contra hc
      have := hn (k - 1) (by omega); rw [show k - 1 + 1 = k by omega] at this; simp [h] at this

/-- A signed encoding has at most ten bytes (R133). -/
theorem encSLen_le_ten (x : U64) : encSLen x ≤ 10 := (encSLen_le (by omega)).mpr (fitsSigned_ten x (by omega))

/-! ## Encoded bytes -/

/-- The continuation flag of an encoded byte (R73). -/
theorem contBit_groupByte (v : U64) (m : Bool) : contBit (groupByte v m) = m := by
  unfold contBit groupByte
  cases m <;> simp

/-- The payload of an encoded byte (R72, R73). -/
theorem payload_groupByte (v : U64) (m : Bool) : payload (groupByte v m) = v &&& 0x7F := by
  unfold payload groupByte
  apply BitVec.eq_of_getLsbD_eq
  intro i hi
  simp only [BitVec.getLsbD_setWidth, BitVec.getLsbD_and, BitVec.getLsbD_or]
  by_cases h : i < 7
  · cases m <;> interval_cases i <;> simp [Config.payloadMask, Config.contMask]
  · have h7 : (0x7F#8).getLsbD i = false := getLsbD_of_lt_8 h
    have h64 : (0x7F#64).getLsbD i = false := getLsbD_of_lt (m := 7) (by decide) (by omega)
    simp [h7, h64]
where
  getLsbD_of_lt_8 {i : Nat} (h : ¬ i < 7) : (0x7F#8).getLsbD i = false := by
    rw [BitVec.getLsbD]; exact Nat.testBit_lt_two_pow (Nat.lt_of_lt_of_le (by decide : (0x7F#8).toNat < 2 ^ 7) (Nat.pow_le_pow_right (by decide) (by omega)))

/-! ## Varints under a cap -/

/-- The sum of n ≤ 9 groups stays below bit 7n (R72). -/
theorem groupSum_lt (f : Nat → U8) (n : Nat) (hn : n ≤ 9) : (groupSum f n).toNat < 2 ^ (7 * n) := by
  induction n with
  | zero => simp [groupSum]
  | succ n ih =>
    have := toNat_accum (n := n) (by omega) (ih (by omega)) (f n)
    rw [groupSum, this.1]; exact this.2

/-- The length of a varint under a cap: every byte but its last has C = 1, and its last has C = 0 unless the cap is hit (R71). -/
theorem varintLen_spec (cap : Nat) (hcap : 1 ≤ cap) (f : Nat → U8) :
    1 ≤ varintLen cap f ∧ varintLen cap f ≤ cap ∧ (∀ k, k + 1 < varintLen cap f → contBit (f k) = true) ∧
    (contBit (f (varintLen cap f - 1)) = true → varintLen cap f = cap) := by
  unfold varintLen
  split
  · rename_i j hj
    obtain ⟨h1, h2, h3⟩ := List.find?_range_eq_some.mp hj
    simp at h1 h2 h3
    refine ⟨by omega, by omega, fun k hk => h3 k (by omega), ?_⟩
    simp [h1]
  · rename_i hn
    simp at hn
    exact ⟨hcap, le_refl _, fun k hk => hn k (by omega), fun _ => rfl⟩

/-- The length of a varint is the one number with the properties of `varintLen_spec`. -/
theorem varintLen_unique {cap L : Nat} {f : Nat → U8} (h1 : 1 ≤ L) (h2 : L ≤ cap) (h3 : ∀ k, k + 1 < L → contBit (f k) = true)
   (h4 : contBit (f (L - 1)) = true → L = cap) : varintLen cap f = L := by
  obtain ⟨g1, g2, g3, g4⟩ := varintLen_spec cap (by omega) f
  rcases Nat.lt_trichotomy (varintLen cap f) L with h | h | h
  · have := h3 (varintLen cap f - 1) (by omega); have := g4 this; omega
  · exact h
  · have := g3 (L - 1) (by omega); have := h4 this; omega

/-- Where the bytes do not run out, the varint lies within them (R116). -/
theorem varintLen_le {cap len : Nat} (hcap : 1 ≤ cap) {f : Nat → U8} (h : ¬ runsOut cap f len) : varintLen cap f ≤ len := by
  obtain ⟨g1, g2, g3, g4⟩ := varintLen_spec cap (by omega) f
  by_contra hc
  exact h ⟨by omega, fun k hk => g3 k (by omega)⟩

end Sys2Proof.Machine
end

