-- ==== Sys2Proof/Laws/PerInstr.lean ====
section
/-! SUPPORT. A statement about the syntax of every instruction, made one constructor at a time: its encoding
(30_encoding.md R75–R77). -/

namespace Sys2Proof.Laws.Opcode

/-- An instruction is well formed, its word is below 8 and its KIND is not the illegal one, every word that agrees
with it in bits 2..0 decodes to it, and its SGN bit tells the signed half of the table. -/
def Statement (i : Instr) : Prop :=
  i.wf = true ∧ (encode i).toNat < 8 ∧ kindField (opcode i) ≠ 3 ∧
  (∀ w : U64, opField w = opcode i → decode w = .ok i) ∧
  (sgnField (opcode i) = true ↔ i = .encs ∨ i = .decs ∨ i = .reads)

theorem encu : Statement .encu :=
  ⟨rfl, by decide, by decide, fun _ h => by rw [decode, h]; rfl, by decide⟩

theorem decu : Statement .decu :=
  ⟨rfl, by decide, by decide, fun _ h => by rw [decode, h]; rfl, by decide⟩

theorem readu : Statement .readu :=
  ⟨rfl, by decide, by decide, fun _ h => by rw [decode, h]; rfl, by decide⟩

theorem encs : Statement .encs :=
  ⟨rfl, by decide, by decide, fun _ h => by rw [decode, h]; rfl, by decide⟩

theorem decs : Statement .decs :=
  ⟨rfl, by decide, by decide, fun _ h => by rw [decode, h]; rfl, by decide⟩

theorem reads : Statement .reads :=
  ⟨rfl, by decide, by decide, fun _ h => by rw [decode, h]; rfl, by decide⟩

end Sys2Proof.Laws.Opcode
end

