-- ==== Sys2Proof/Laws/Steps.lean ====
section
/-! SUPPORT. Runs of the machine, and the shapes a proof over an engine step splits into (40_operation_lifecycle.md
R97). -/

namespace Sys2Proof.Machine

/-! ## Runs -/

/-- A run of no step. -/
theorem core_run_zero (s : State) : Sys2Proof.core.run 0 s = .next s :=
  Host.Core.run.eq_1 Sys2Proof.core s

/-- A run of k + 1 steps: one step, and k more where it answers. -/
theorem core_run_succ (k : Nat) (s : State) :
    Sys2Proof.core.run (k + 1) s = match step s with
      | .next t => Sys2Proof.core.run k t
      | .fault f => .fault f
      | .refused r => .refused r := by
  rw [Host.Core.run.eq_2 Sys2Proof.core s k]
  cases h : step s <;> simp [Sys2Proof.core, h]

/-! ## Engine steps -/

/-- An engine step that answers is one iteration of a legal operation (R97). -/
theorem engineStep_next {s t : State} (h : engineStep s = .next t) :
    ∃ i, s.blk.op = opcode i ∧ iterate i s = .next t := by
  unfold engineStep at h
  split at h
  · exact ⟨_, eq_opcode_of_decodeOp ‹_›, h⟩
  · cases h

/-- What holds of the three blocks a consumed byte can lead to holds of the one it leads to (60_exceptions.md
R158). -/
theorem Block.consume_of (b : Block) (cap : Nat) (f : Block → Block) (x : U8) {P : Block → Prop}
    (more : P (b.accumulate x)) (last : P (f (b.accumulate x))) (capped : P (f (b.accumulate x).capHit)) :
    P (b.consume cap f x) := by
  rcases b.consume_cases cap f x with ⟨_, e⟩ | ⟨_, _, e⟩ | ⟨_, _, e⟩ <;> rw [e] <;> assumption

/-- What holds of both ends of SignFinish holds of SignFinish (42_signed.md R136). -/
theorem Block.signFinish_of (b : Block) {P : Block → Prop} (neg : P b.addMask.finishAcc) (pos : P b.finishAcc) :
    P b.signFinish := by
  rcases b.signFinish_cases with ⟨_, e⟩ | ⟨_, e⟩ <;> rw [e] <;> assumption

/-- One iteration of a streaming decoder never closes or opens the source and takes at most its head byte (R58). -/
theorem decodeStream_src {cap : Nat} {f e : Block → Block} {s t : State} (h : decodeStream cap f e s = .next t) :
    t.src.closed = s.src.closed ∧ (t.src.queue = s.src.queue ∨ ∃ x, s.src.queue = x :: t.src.queue) := by
  obtain ⟨x, rest, hq, e⟩ | ⟨_, _, e⟩ | ⟨_, _, e⟩ := decodeStream_cases cap f e s <;> rw [e] at h
  · obtain rfl := Host.Outcome.next.inj h
    exact ⟨rfl, .inr ⟨x, hq⟩⟩
  · obtain rfl := Host.Outcome.next.inj h
    exact ⟨rfl, .inl rfl⟩
  · cases h

/-- A kept state is kept on. -/
theorem State.KeepsInputs.trans {s t u : State} (h : s.KeepsInputs t) (g : t.KeepsInputs u) : s.KeepsInputs u :=
  ⟨g.1.trans h.1, g.2.trans h.2, g.3.trans h.3, g.4.trans h.4, g.5.trans h.5, g.6.trans h.6, g.7.trans h.7,
    g.8.trans h.8⟩

end Sys2Proof.Machine
end

