-- ==== Sys2Proof/Tests/Slice0.lean ====
section
/-! SUPPORT. The model's own tests, expected values from the spec (95_test_vectors.md and the examples of the rules),
and for each statement of Obligations.lean with hypotheses a state and operands that meet them. -/

namespace Sys2Proof.Tests

open Sys2Proof.Machine

/-! ## Helpers -/

/-- Whether an outcome is a next state with the given property. -/
def after (o : Outcome) (p : State → Bool) : Bool :=
  match o with
  | .next t => p t
  | .fault _ => false
  | .refused _ => false

/-- The reset state with its block and its byte source set. -/
def start (src : Source) (f : Block → Block) : State :=
  { State.reset with blk := f State.reset.blk, src := src }

/-- An empty open source. -/
def noBytes : Source := ⟨[], false⟩

/-- A busy STATUS after `n` bytes. -/
def busyAt (n : BitVec 4) : Status := { Status.reset with busy := true, nbytes := n }

/-- A running block. -/
def running (i : Instr) (n : BitVec 4) (b : Block) : Block :=
  { b with op := opcode i, phase := .run, status := busyAt n }

/-- An IBUF that begins with the given bytes. -/
def inputBytes (bytes : List U8) : Vector U8 16 := Vector.ofFn fun i => bytes.getD i.val 0

/-- A command and `k` engine steps, where all of them answer. -/
def runCommand (i : Instr) (k : Nat) (s : State) : Option State :=
  match exec i s with
  | .next t => engineSteps k t
  | .fault _ => none
  | .refused _ => none

/-! ## Well-formedness refuses -/

theorem test_wf_reserved_name_of_operand : (Reg.reserved 0x01).wf = false := by decide
theorem test_wf_reserved_name_of_last_ibuf : (Reg.reserved 0x1F).wf = false := by decide
theorem test_wf_action_kind_five : (ActionCode.mk 5 0 0).wf = false := by decide
theorem test_wf_push_of_nine_bits : (ActionCode.mk 2 0 0x100).wf = false := by decide
theorem test_wf_immediate_too_large : (AsmItem.wr .operand ((2 : Int) ^ 64)).wf = false := by decide
theorem test_wf_immediate_too_small : (AsmItem.wr .operand (-(2 : Int) ^ 63 - 1)).wf = false := by decide
theorem test_wf_write_of_ill_formed_register : (AsmItem.wr (.reserved 0x04) 0).wf = false := by decide
theorem test_wf_read_of_ill_formed_register : (AsmItem.rd (.reserved 0x20)).wf = false := by decide
theorem test_wf_ldib_of_seventeen_bytes : (AsmItem.ldib (List.replicate 17 0)).wf = false := by decide
theorem test_wf_accepts_the_bounds :
    (AsmItem.ldib (List.replicate 16 0)).wf = true ∧ (AsmItem.wr .operand (-(2 : Int) ^ 63)).wf = true ∧
    (AsmItem.wr .operand ((2 : Int) ^ 64 - 1)).wf = true ∧ (Reg.reserved 0x05).wf = true := by decide

/-! ## Decoding, from words written out bit by bit (30_encoding.md R75, R76) -/

theorem test_decode_encu : decode 0b000#64 = .ok .encu := by decide
theorem test_decode_decu : decode 0b001#64 = .ok .decu := by decide
theorem test_decode_readu : decode 0b010#64 = .ok .readu := by decide
theorem test_decode_encs : decode 0b100#64 = .ok .encs := by decide
theorem test_decode_decs : decode 0b101#64 = .ok .decs := by decide
theorem test_decode_reads : decode 0b110#64 = .ok .reads := by decide
theorem test_decode_ignores_bits_63_to_3 : decode 0xFFFFFFFFFFFFFFFE#64 = .ok .reads := by decide
theorem test_decode_illegal : decode 0b011#64 = .error (.illegalOp 3) ∧ decode 0xB#64 = .error (.illegalOp 3) := by
  decide
theorem test_decode_table_word : decodeTableWord 8 5 = some .decs ∧ decodeTableWord 8 7 = none := by decide

/-- R79: `WR OPERAND, -1`. -/
theorem test_negative_immediate : (AsmItem.wr .operand (-1)).expand = [.host (.wr 0x01 ONES)] := by decide

/-- R80: `LDIB 0x80, 0x01`. -/
theorem test_ldib : (AsmItem.ldib [0x80, 0x01]).expand =
    [.host (.wr 0x10 0x80), .host (.wr 0x11 0x01), .host (.wr 0x04 2)] := by decide

/-! ## Commands and their iterations -/

/-- R110: InitENCU, for SRC-5. -/
theorem test_encu_starts :
    after (exec .encu (start noBytes fun b => { b with operand := 12857 }))
      (fun t => t.blk.v = 12857 ∧ t.blk.rem = 100 ∧ t.blk.readReg .status = 0x1) = true := by decide

/-- R111, SRC-5: the second byte of 12857 is the last, 0x64. -/
theorem test_encu_last_byte :
    after (engineStep (start noBytes fun b => { running .encu 1 b with v := 100, rem := 0 }))
      (fun t => t.blk.readReg (.obuf 1) = 0x64 ∧ t.blk.readReg .status = 0x2002) = true := by decide

/-- R93: DECU clears what stood in RESULT and OBUF. -/
theorem test_decu_starts :
    after (exec .decu (start noBytes fun b => { b with result := 7, obuf := Vector.replicate 10 1 }))
      (fun t => t.blk.mask = ONES ∧ t.blk.result = 0 ∧ t.blk.obuf = Vector.replicate 10 0) = true := by decide

/-- R115, SRC-6: the second byte of [0x80, 0x01] completes with 128. -/
theorem test_decu_last_byte :
    after (engineStep (start noBytes fun b =>
        { running .decu 1 b with ibuf := inputBytes [0x80, 0x01], ilen := 2, acc := 0 }))
      (fun t => t.blk.readReg .result = 128 ∧ t.blk.readReg .status = 0x2002) = true := by decide

/-- R121, the example of the rule. -/
theorem test_readu_byte :
    after (engineStep (start ⟨[0x01, 0x1B, 0x75, 0x3D], true⟩ (running .readu 0)))
      (fun t => t.blk.readReg .result = 1 ∧ t.blk.readReg .status = 0x1002 ∧
        t.src = ⟨[0x1B, 0x75, 0x3D], true⟩) = true := by decide

/-- R122, SRC-10: end of input at once. -/
theorem test_readu_end_of_input :
    after (engineStep (start ⟨[], true⟩ (running .readu 0)))
      (fun t => t.blk.readReg .result = 0 ∧ t.blk.readReg .status = 0x0102) = true := by decide

/-- R130: InitENCS of −64, whose remaining value is the terminal −1. -/
theorem test_encs_starts :
    after (exec .encs (start noBytes fun b => { b with operand := 0xFFFFFFFFFFFFFFC0 }))
      (fun t => t.blk.rem = ONES ∧ t.blk.endv = ONES ∧ t.blk.op = 4) = true := by decide

/-- R131: 64 needs a second byte although its remaining value is the terminal, since bit 6 is set. -/
theorem test_encs_needs_sign_byte :
    after (engineStep (start noBytes fun b => { running .encs 0 b with v := 64, rem := 0, endv := 0 }))
      (fun t => t.blk.readReg (.obuf 0) = 0xC0 ∧ t.blk.phase = .run) = true := by decide

/-- R135, SRC-7: [0x7F] decodes to −1. -/
theorem test_decs_minus_one :
    after (engineStep (start noBytes fun b =>
        { running .decs 0 b with ibuf := inputBytes [0x7F], ilen := 1, acc := 0, mask := ONES }))
      (fun t => t.blk.readReg .result = ONES ∧ t.blk.readReg .status = 0x1002) = true := by decide

/-- R138: ILEN = 0 is TRUNCATED at once. -/
theorem test_decs_truncated :
    after (engineStep (start noBytes (running .decs 0)))
      (fun t => t.blk.readReg .result = 0 ∧ t.blk.readReg .status = 0x0202) = true := by decide

/-- R139, R143, S-R5: the fifth byte of 2^34 hits the cap, and the sixth stays in the source. -/
theorem test_reads_cap_hit :
    after (engineStep (start ⟨[0xC0, 0x00], true⟩ fun b =>
        { running .reads 4 b with acc := 0, mask := ONES <<< 28 }))
      (fun t => t.blk.readReg .result = 0xFFFFFFFC00000000 ∧ t.blk.readReg .status = 0x5006 ∧
        t.src = ⟨[0x00], true⟩) = true := by decide

/-- R146: end of input under `P_READS_EOI = fault`. -/
theorem test_reads_faults :
    after (engineStep { start ⟨[], true⟩ (running .reads 0) with readsEoi := .fault })
      (fun t => t.blk.phase = .faulted ∧ t.blk.readReg .status = 0x0011) = true := by decide

/-! ## The host's side -/

/-- L-1: `WR CMD, 3`. -/
theorem test_illegal_command :
    after (step { State.reset with turns := [.host (.wr 0x00 3)] }) (fun t => t.blk.readReg .status = 0x0302) = true := by
  decide

/-- L-8: a write to a reserved index while busy. -/
theorem test_reserved_write_while_busy :
    after (step { start noBytes (running .encu 0) with turns := [.host (.wr 0x07 1)] })
      (fun t => t.blk.readReg .status = 0x0009) = true := by decide

/-- R34: ILEN clamps at 16, and R90: a read returns it. -/
theorem test_ilen_clamps :
    after (Sys2Proof.core.run 2 { State.reset with turns := [.host (.wr 0x04 17), .host (.rd 0x04)] })
      (fun t => t.answers = [16]) = true := by decide

/-- R80: a poll that sees neither DONE nor FAULT is repeated. -/
theorem test_wait_goes_on :
    after (step { start noBytes (running .encu 0) with turns := [.wait] })
      (fun t => t.turns = [.engine, .wait] ∧ t.answers = [0x0001]) = true := by decide

/-- L-9: RESET while DECU runs leaves the source. -/
theorem test_reset_while_busy :
    after (step { start ⟨[0x07], false⟩ (fun b => { running .decu 1 b with ilen := 3 }) with turns := [.host .reset] })
      (fun t => t.blk.phase = .idle ∧ t.blk.readReg .status = 0 ∧ t.blk.ilen = 0 ∧ t.src.queue = [0x07]) = true := by
  decide

/-- A word placed for the next step runs as the first step after reset. -/
theorem test_placed_word_runs :
    after (step (State.reset.withFetchWord 8 6)) (fun t => t.blk.op = 6 ∧ t.blk.phase = .run ∧ t.turns = []) = true := by
  decide

/-! ## States that meet the hypotheses of the statements

The states named here are used below; each `witness_…` shows that the hypotheses of the statement it names are met
together, clause by clause and at the ends of the ranges. -/

/-- A READU held on an empty open source. -/
def heldReadu : State := start noBytes fun b => { running .readu 0 b with acc := 0, mask := ONES }

/-- A READS on a closed empty source under `P_READS_EOI = fault`. -/
def endingReads : State :=
  { start ⟨[], true⟩ (fun b => { running .reads 0 b with acc := 0, mask := ONES }) with readsEoi := .fault }

/-- A faulted READS. -/
def faulted : State :=
  { start ⟨[], true⟩ (fun b =>
      { b with op := opcode .reads, phase := .faulted, status := { busyAt 0 with fault := true } })
    with readsEoi := .fault }

/-- A completed ENCU. -/
def completed : State :=
  start noBytes fun b =>
    { b with obuf := b.obuf.set 0 0x7F, status := { Status.reset with done := true, nbytes := 1 } }

/-- An ENCU of 2^63 before its tenth byte. -/
def lastEncu : State :=
  start noBytes fun b =>
    { running .encu 9 b with operand := 0x8000000000000000, v := 1, rem := 0,
                             obuf := (Vector.replicate 10 0x80).set 9 0 }

/-- A DECS before its fifth byte, of five zero groups that go on. -/
def lastDecs : State :=
  start noBytes fun b =>
    { running .decs 4 b with ibuf := inputBytes [0x80, 0x80, 0x80, 0x80, 0xC0], ilen := 5, acc := 0,
                             mask := ONES <<< 28 }

/-- The invariant of a state whose block does not run. -/
theorem inv_of_not_running {s : State} (h48 : s.blk.R48) (hi : s.blk.ilen.toNat ≤ 16) (hp : s.blk.phase ≠ .run)
    (hr : s.blk.status.busy = true → s.blk.result = 0 ∧ s.blk.status.err = .none ∧ s.blk.status.caphit = false)
    (hf : s.blk.phase = .faulted → s.readsEoi = .fault) : s.Inv :=
  ⟨h48, hi, ⟨fun h => (hr h).1, fun h => (hr h).2.1, fun h => (hr h).2.2, fun h => absurd h hp, fun h => absurd h hp,
    fun h => absurd h hp, fun h => absurd h hp, fun h => absurd h hp, fun h => absurd h hp⟩, hf⟩

theorem inv_heldReadu : heldReadu.Inv := by
  refine ⟨⟨?_, ?_, ?_, ?_, ?_, ?_, ?_, ?_, ?_, ?_⟩, by decide,
    ⟨?_, ?_, ?_, ?_, fun _ h => absurd h (by decide), fun _ h => absurd h (by decide),
      fun _ _ => ⟨by decide, by decide, by decide, by decide⟩, fun _ h => absurd h (by decide),
      fun _ h => absurd h (by decide)⟩, ?_⟩ <;> decide

theorem inv_endingReads : endingReads.Inv := by
  refine ⟨⟨?_, ?_, ?_, ?_, ?_, ?_, ?_, ?_, ?_, ?_⟩, by decide,
    ⟨?_, ?_, ?_, ?_, fun _ h => absurd h (by decide), fun _ h => absurd h (by decide),
      fun _ h => absurd h (by decide), fun _ _ => ⟨by decide, by decide, by decide, by decide⟩,
      fun _ h => absurd h (by decide)⟩, ?_⟩ <;> decide

theorem inv_lastEncu : lastEncu.Inv := by
  refine ⟨⟨?_, ?_, ?_, ?_, ?_, ?_, ?_, ?_, ?_, ?_⟩, by decide,
    ⟨?_, ?_, ?_, ?_, fun _ _ => ⟨by decide, by decide, by decide, by decide, by decide⟩,
      fun _ h => absurd h (by decide), fun _ h => absurd h (by decide), fun _ h => absurd h (by decide),
      fun _ h => absurd h (by decide)⟩, ?_⟩ <;> decide

theorem inv_lastDecs : lastDecs.Inv := by
  refine ⟨⟨?_, ?_, ?_, ?_, ?_, ?_, ?_, ?_, ?_, ?_⟩, by decide,
    ⟨?_, ?_, ?_, ?_, fun _ h => absurd h (by decide), fun _ h => absurd h (by decide),
      fun _ h => absurd h (by decide), fun _ _ => ⟨by decide, by decide, by decide, by decide⟩,
      fun _ _ => ⟨by decide, by decide⟩⟩, ?_⟩ <;> decide

theorem inv_faulted : faulted.Inv := by
  refine inv_of_not_running ⟨?_, ?_, ?_, ?_, ?_, ?_, ?_, ?_, ?_, ?_⟩ ?_ ?_ ?_ ?_ <;> decide

theorem inv_completed : completed.Inv := by
  refine inv_of_not_running ⟨?_, ?_, ?_, ?_, ?_, ?_, ?_, ?_, ?_, ?_⟩ ?_ ?_ ?_ ?_ <;> decide

/-- The invariant does not read the turns. -/
theorem inv_turns {s : State} (h : s.Inv) (ts : List Turn) : (s.withTurns ts).Inv :=
  ⟨h.r48, h.ilen, h.running, h.faulted⟩

/-! ### Encodings and turns -/

theorem witness_RegisterIndexMapRoundTrips :
    (Reg.reserved 0x05).wf = true ∧ (Reg.reserved 0x0F).wf = true ∧ (Reg.reserved 0x2A).wf = true ∧
    (Reg.reserved 0xFF).wf = true ∧ (Reg.obuf 9).wf = true := by decide

theorem witness_PseudoInstructionsExpand :
    ([] : List U8).length ≤ 16 ∧ (List.replicate 16 (0 : U8)).length ≤ 16 := by decide

theorem witness_StepRunsTheDecodedCommand :
    (State.reset.withTurns [.host (.wr 0x00 0xFFFFFFFFFFFFFFF8)]).turns = .host (.wr 0x00 0xFFFFFFFFFFFFFFF8) :: [] ∧
    decode 0xFFFFFFFFFFFFFFF8 = .ok .encu := by decide

theorem witness_PlacedTableWordRunsNext :
    decodeTableWord 8 0 = some .encu ∧ decodeTableWord 8 6 = some .reads ∧ decodeTableWord 64 0x8 = some .encu := by
  decide

theorem witness_StepTakesTheNextTurn :
    ((endingReads.withTurns []).turns = [] ∧ engineEnabled (endingReads.withTurns []) = true) ∧
    ((endingReads.withTurns [.engine]).turns = .engine :: [] ∧
      engineEnabled (endingReads.withTurns [.engine]) = true) ∧
    ((heldReadu.withTurns [.engine]).turns = .engine :: [] ∧
      engineEnabled (heldReadu.withTurns [.engine]) = false) ∧
    (heldReadu.withTurns [.host .close]).turns = .host .close :: [] := by decide

theorem witness_StepStopsOnlyWhereNoAgentHasAStep :
    heldReadu.Inv ∧ heldReadu.turns = [] ∧ engineEnabled heldReadu = false ∧
    lastEncu.Inv ∧ engineEnabled lastEncu = true :=
  ⟨inv_heldReadu, by decide, by decide, inv_lastEncu, by decide⟩

theorem witness_WaitPollsUntilDoneOrFault :
    ((completed.withTurns [.wait]).turns = .wait :: [] ∧ completed.blk.status.done = true) ∧
    faulted.blk.status.fault = true ∧
    (heldReadu.blk.status.done = false ∧ heldReadu.blk.status.fault = false) := by decide

/-! ### Host accesses -/

theorem witness_CommandsStartOnAnIdleBlock : completed.blk.status.busy = false ∧ decode 0x6 = .ok .reads := by decide

theorem witness_IllegalCommandCompletesAtOnce :
    completed.blk.status.busy = false ∧ completed.blk.phase = .idle ∧
    (3#64).getLsbD 0 = true ∧ (3#64).getLsbD 1 = true ∧ (7#64).getLsbD 0 = true ∧ (7#64).getLsbD 1 = true := by decide

theorem witness_WriteWhileBusySetsHazardOnly :
    heldReadu.blk.status.busy = true ∧ faulted.blk.status.busy = true := by decide

theorem witness_IdleWritesFollowTheIndexMap :
    completed.blk.status.busy = false ∧ decode 0x0 = .ok .encu ∧ decode 0x3 = .error (.illegalOp 3) ∧
    (∀ idx : BitVec 8, idx ∈ [0x02, 0x03, 0x05, 0x0F, 0x20, 0x29, 0x2A, 0xFF] →
      idx.toNat ≠ 0x00 ∧ idx.toNat ≠ 0x01 ∧ idx.toNat ≠ 0x04 ∧ ¬(0x10 ≤ idx.toNat ∧ idx.toNat ≤ 0x1F)) ∧
    hostAct (.wr 0xFF 1) completed = .next completed := by
  refine ⟨by decide, by decide, by decide, by decide, rfl⟩

theorem witness_ReadsReturnTheRegisterAndChangeNothing :
    ∀ idx : BitVec 8, idx ∈ [0x05, 0x0F, 0x2A, 0xFF] → (0x05 ≤ idx.toNat ∧ idx.toNat ≤ 0x0F) ∨ 0x2A ≤ idx.toNat := by
  decide

theorem witness_PushAppendsAndCloseCloses :
    heldReadu.src.closed = false ∧ endingReads.src.closed = true ∧
    ∃ t, step endingReads = .next t :=
  ⟨by decide, by decide, _, rfl⟩

theorem witness_SourceReadAnswers :
    heldReadu.blk.phase = .run ∧ heldReadu.blk.op = opcode .readu ∧ heldReadu.src.closed = false ∧
    endingReads.blk.op = opcode .reads ∧
    (∃ t, hostAct (.push 0) heldReadu = .next t) ∧ ∃ t, hostAct .close heldReadu = .next t :=
  ⟨by decide, by decide, by decide, by decide, ⟨_, rfl⟩, _, rfl⟩

theorem witness_EndOfInputPersists :
    endingReads.src.closed = true ∧ endingReads.src.queue = [] ∧
    after (Sys2Proof.core.run 1 endingReads) (fun _ => true) = true := by decide

/-! ### The engine -/

theorem witness_EngineHasAStepExactlyWhen :
    (heldReadu.withTurns [.host (.push 1)]).Inv ∧ (heldReadu.withTurns [.host (.push 1)]).blk.phase = .run ∧
    engineEnabled (heldReadu.withTurns [.host (.push 1)]) = false ∧
    (∃ t, step (heldReadu.withTurns [.host (.push 1)]) = .next t ∧ engineEnabled t = true) ∧
    ∃ t, step (heldReadu.withTurns [.host .reset]) = .next t ∧ t.blk.phase ≠ .run :=
  ⟨inv_turns inv_heldReadu _, by decide, by decide, ⟨_, rfl, by decide⟩, _, rfl, by decide⟩

theorem witness_EncuIteration :
    (lastEncu.blk.status.nbytes.toNat = 9 ∧ lastEncu.blk.op = opcode .encu ∧ lastEncu.blk.rem = 0) ∧
    let s := start noBytes fun b => { running .encu 0 b with v := 300, rem := 2 }
    s.blk.status.nbytes.toNat < 10 ∧ s.blk.op = opcode .encu ∧ s.blk.rem ≠ 0 := by decide

theorem witness_EncsIteration :
    (let s := start noBytes fun b => { running .encs 9 b with v := 0, rem := 0, endv := 0 }
     s.blk.status.nbytes.toNat < 10 ∧ s.blk.op = opcode .encs ∧
      ¬(s.blk.rem ≠ s.blk.endv ∨ s.blk.rem.getLsbD 0 ≠ s.blk.v.getLsbD 6)) ∧
    (let s := start noBytes fun b => { running .encs 0 b with v := 64, rem := 0, endv := 0 }
     s.blk.status.nbytes.toNat < 10 ∧ s.blk.op = opcode .encs ∧
      (s.blk.rem ≠ s.blk.endv ∨ s.blk.rem.getLsbD 0 ≠ s.blk.v.getLsbD 6)) := by decide

theorem witness_GroupAccumulateStep :
    let b := { running .decu 8 State.reset.blk with acc := 0xFFFFFFFFFFFFFF }
    b.status.nbytes.toNat ≤ 8 ∧ b.acc.toNat < 2 ^ (7 * b.status.nbytes.toNat) := by decide

theorem witness_DecuIteration :
    (let s := start noBytes (running .decu 0)
     s.blk.op = opcode .decu ∧ s.blk.ilen.toNat ≤ s.blk.status.nbytes.toNat) ∧
    (let s := start noBytes fun b => { running .decu 8 b with ilen := 9, ibuf := Vector.replicate 16 0x81 }
     s.blk.op = opcode .decu ∧ s.blk.status.nbytes.toNat < s.blk.ilen.toNat ∧
      s.blk.ibuf[s.blk.status.nbytes.toNat]? = some 0x81) := by decide

theorem witness_DecsIteration :
    (let s := start noBytes fun b => { running .decs 4 b with ilen := 4 }
     s.blk.op = opcode .decs ∧ s.blk.ilen.toNat ≤ s.blk.status.nbytes.toNat) ∧
    (lastDecs.blk.op = opcode .decs ∧ lastDecs.blk.status.nbytes.toNat < lastDecs.blk.ilen.toNat ∧
      lastDecs.blk.ibuf[lastDecs.blk.status.nbytes.toNat]? = some 0xC0) := by decide

theorem witness_ReaduIteration :
    (start ⟨[], true⟩ (running .readu 0)).blk.op = opcode .readu ∧
    (start ⟨[], true⟩ (running .readu 0)).src = ⟨[], true⟩ ∧
    (start ⟨[0x80], false⟩ (running .readu 8)).src = ⟨0x80 :: [], false⟩ := by decide

theorem witness_ReadsIteration :
    endingReads.blk.op = opcode .reads ∧ endingReads.src = ⟨[], true⟩ ∧ endingReads.readsEoi = .fault ∧
    (start ⟨[], true⟩ (running .reads 4)).readsEoi = .error ∧
    (start ⟨[0xC0], true⟩ (running .reads 4)).src = ⟨0xC0 :: [], true⟩ := by decide

theorem witness_SignFinishIsSignExtension :
    (let b := { running .decs 1 State.reset.blk with acc := 0x7F, mask := ONES <<< 7 }
     1 ≤ b.status.nbytes.toNat ∧ b.status.nbytes.toNat ≤ 9 ∧ b.acc.toNat < 2 ^ (7 * b.status.nbytes.toNat) ∧
      b.mask = ONES <<< (7 * b.status.nbytes.toNat)) ∧
    (let b := { running .decs 9 State.reset.blk with acc := 0x4000000000000000, mask := ONES <<< 63 }
     b.status.nbytes.toNat = 9 ∧ b.acc.toNat < 2 ^ (7 * b.status.nbytes.toNat) ∧
      b.mask = ONES <<< (7 * b.status.nbytes.toNat)) := by decide

theorem witness_FinishCompletesTheOperation :
    (completed.withTurns [.host (.wr 0x00 0)]).Inv ∧
    (completed.withTurns [.host (.wr 0x00 0)]).blk.phase = .idle ∧
    (∃ t, step (completed.withTurns [.host (.wr 0x00 0)]) = .next t ∧ t.blk.phase = .run) ∧
    ∃ t, step (completed.withTurns [.host (.rd 0x02)]) = .next t ∧ t.blk.phase = .idle :=
  ⟨inv_turns inv_completed _, by decide, ⟨_, rfl, by decide⟩, _, rfl, by decide⟩

/-! ### Rules of the whole machine -/

theorem witness_EveryStepKeepsInv :
    (lastEncu.Inv ∧ ∃ t, step lastEncu = .next t) ∧ (lastDecs.Inv ∧ ∃ t, step lastDecs = .next t) ∧
    (endingReads.Inv ∧ ∃ t, step endingReads = .next t) :=
  ⟨⟨inv_lastEncu, _, rfl⟩, ⟨inv_lastDecs, _, rfl⟩, inv_endingReads, _, rfl⟩

theorem witness_HazardAndFaultAreSticky :
    let s := { faulted with blk := faulted.blk.setHazard, turns := [.host .close] }
    (∃ t, step s = .next t) ∧ s.turns.head? ≠ some (.host .reset) ∧ s.blk.status.hazard = true ∧
      s.blk.status.fault = true :=
  ⟨⟨_, rfl⟩, by decide, by decide, by decide⟩

theorem witness_FaultedIsEnteredByReadsAndLeftByReset :
    (endingReads.Inv ∧ endingReads.blk.phase ≠ .faulted ∧
      ∃ t, step endingReads = .next t ∧ t.blk.phase = .faulted) ∧
    (faulted.Inv ∧ faulted.blk.phase = .faulted) ∧
    (∃ t, step (faulted.withTurns [.host (.wr 0x01 5)]) = .next t) ∧
    ∃ t, step (faulted.withTurns [.host .reset]) = .next t :=
  ⟨⟨inv_endingReads, by decide, _, rfl, by decide⟩, ⟨inv_faulted, by decide⟩, ⟨_, rfl⟩, _, rfl⟩

theorem witness_EngineStepFrame :
    (∃ t, engineStep lastEncu = .next t) ∧ (∃ t, engineStep lastDecs = .next t) ∧
    ∃ t, engineStep (start ⟨[0x01], true⟩ (running .readu 0)) = .next t :=
  ⟨⟨_, rfl⟩, ⟨_, rfl⟩, _, rfl⟩

theorem witness_CompletedOutputsStayUntilTheHostActs :
    completed.Inv ∧ completed.blk.status.done = true ∧
    (∃ t, step (completed.withTurns [.host (.push 1)]) = .next t) ∧
    (∀ idx w, (completed.withTurns [.host (.push 1)]).turns.head? ≠ some (.host (.wr idx w))) ∧
    (completed.withTurns [.host (.push 1)]).turns.head? ≠ some (.host .reset) :=
  ⟨inv_completed, by decide, ⟨_, rfl⟩, (fun _ _ h => by cases h), by decide⟩

theorem witness_OutputsWhileBusyArePartial :
    (lastEncu.Inv ∧ lastEncu.blk.status.busy = true ∧ lastEncu.blk.status.nbytes.toNat ≤ 9) ∧
    (lastDecs.Inv ∧ lastDecs.blk.status.busy = true ∧ lastDecs.blk.phase = .run ∧
      lastDecs.blk.op ≠ opcode .encu ∧ lastDecs.blk.op ≠ opcode .encs) :=
  ⟨⟨inv_lastEncu, by decide, by decide⟩, inv_lastDecs, by decide, by decide, by decide, by decide⟩

theorem witness_HostReadsAndIgnoredWritesDoNotReachTheEngine :
    (engineSteps 2 (start noBytes fun b => { running .encu 0 b with v := 300, rem := 2 })).isSome = true := by decide

theorem witness_EarlyPushesDoNotChangeTheOutcome :
    let s := start ⟨[0x80, 0x01], false⟩ (running .readu 0)
    s.src.closed = false ∧ (engineSteps 2 s).isSome = true := by decide

theorem witness_EveryOperationEnds :
    (lastEncu.Inv ∧ lastEncu.blk.phase = .run ∧ lastEncu.blk.op = opcode .encu ∧ streams .encu = false) ∧
    (endingReads.Inv ∧ endingReads.blk.phase = .run ∧ endingReads.blk.op = opcode .reads ∧
      endingReads.src.closed = true) :=
  ⟨⟨inv_lastEncu, by decide, by decide, by decide⟩, inv_endingReads, by decide, by decide, by decide⟩

/-! ### Closed forms -/

theorem witness_EncuClosedForm : completed.blk.status.busy = false := by decide

theorem witness_UnsignedLengthTable :
    encULen 16384 = 3 ∧ encULen 0xFFFFFFFFFFFFFFFF = 10 ∧ encULen 0x7FFFFFFFFFFFFFFF = 9 ∧ encULen 0 = 1 := by decide

theorem witness_EncsClosedForm : completed.blk.status.busy = false := by decide

theorem witness_SignedLengthTable :
    encSLen 64 = 2 ∧ encSLen 0xFFFFFFFFFFFFFFC0 = 1 ∧ encSLen 0x4000000000000000 = 10 := by decide

theorem witness_EncodedBytesCarryTheirGroups : 1 < encULen 128 ∧ 1 < encSLen 64 ∧ 0 < encULen 0 := by decide

/-- An idle block with the given IBUF. -/
def holding (bytes : List U8) (len : BitVec 5) : State :=
  start noBytes fun b => { b with ibuf := inputBytes bytes, ilen := len }

theorem witness_DecuClosedForm :
    ((holding [] 0).blk.status.busy = false ∧ runsOut 9 (holding [] 0).blk.inputAt 0) ∧
    runsOut 9 (holding (List.replicate 8 0x80) 8).blk.inputAt 8 ∧
    ¬runsOut 9 (holding (List.replicate 9 0x80) 9).blk.inputAt 9 ∧
    ¬runsOut 9 (holding [0x80, 0x01] 2).blk.inputAt 2 := by
  refine ⟨⟨by decide, ⟨by decide, by decide⟩⟩, ⟨by decide, by decide⟩, fun h => absurd h.1 (by decide),
    fun h => absurd (h.2 1 (by decide)) (by decide)⟩

theorem witness_DecsClosedForm :
    (holding [] 0).blk.status.busy = false ∧ runsOut 5 (holding (List.replicate 4 0x80) 4).blk.inputAt 4 ∧
    ¬runsOut 5 (holding (List.replicate 5 0x80) 5).blk.inputAt 5 ∧
    ¬runsOut 5 (holding [0x7F] 1).blk.inputAt 1 := by
  refine ⟨by decide, ⟨by decide, by decide⟩, fun h => absurd h.1 (by decide),
    fun h => absurd (h.2 0 (by decide)) (by decide)⟩

theorem witness_ReaduClosedForm :
    ((start ⟨[], true⟩ id).blk.status.busy = false ∧ runsOut 9 (byteAt []) 0 ∧ (start ⟨[], true⟩ id).src.closed = true) ∧
    (runsOut 9 (byteAt (List.replicate 8 0x80)) 8 ∧
      (start ⟨List.replicate 8 0x80, false⟩ id).src.closed = false) ∧
    (runsOut 9 (byteAt []) 0 ∧ (start noBytes id).src.closed = false) ∧
    ¬runsOut 9 (byteAt (List.replicate 9 0x80)) 9 ∧ ¬runsOut 9 (byteAt [0x01]) 1 := by
  refine ⟨⟨by decide, ⟨by decide, by decide⟩, by decide⟩, ⟨⟨by decide, by decide⟩, by decide⟩,
    ⟨⟨by decide, by decide⟩, by decide⟩, fun h => absurd h.1 (by decide),
    fun h => absurd (h.2 0 (by decide)) (by decide)⟩

theorem witness_ReadsClosedForm :
    (completed.blk.status.busy = false ∧ runsOut 5 (byteAt (List.replicate 4 0x80)) 4 ∧
      (start ⟨List.replicate 4 0x80, true⟩ id).src.closed = true ∧
      (start ⟨List.replicate 4 0x80, false⟩ id).src.closed = false) ∧
    (start ⟨[], true⟩ id).readsEoi = .error ∧
    { start ⟨[], true⟩ id with readsEoi := .fault }.readsEoi = .fault ∧
    ¬runsOut 5 (byteAt (List.replicate 5 0x80)) 5 := by
  refine ⟨⟨by decide, ⟨by decide, by decide⟩, by decide, by decide⟩, by decide, rfl, fun h => absurd h.1 (by decide)⟩

/-- The encodings of 2^63, ten bytes, and of 127, one byte, copied to IBUF and to a source: the inner hypotheses of both
legs of the round trip, on both sides of 2^63. -/
theorem witness_UnsignedRoundTrip :
    let s := start noBytes fun b => { b with operand := 0x8000000000000000 }
    let t := start noBytes fun b => { b with operand := 127 }
    let bytes : List U8 := List.replicate 9 0x80 ++ [0x01]
    s.blk.status.busy = false ∧ t.blk.status.busy = false ∧
    encULen s.blk.operand = 10 ∧ encULen t.blk.operand = 1 ∧
    (runCommand .encu 10 s).map (fun u => (List.range 10).map u.blk.outputAt) = some bytes ∧
    (runCommand .encu 1 t).map (fun u => (List.range 1).map u.blk.outputAt) = some [0x7F] ∧
    ((holding bytes 10).blk.status.busy = false ∧ (holding bytes 10).blk.ilen.toNat = 10 ∧
      (List.range 10).map (holding bytes 10).blk.inputAt = bytes) ∧
    ((holding [0x7F] 1).blk.ilen.toNat = 1 ∧ (holding [0x7F] 1).blk.inputAt 0 = 0x7F) ∧
    ((start ⟨bytes, false⟩ id).blk.status.busy = false ∧ (start ⟨bytes, false⟩ id).src.queue = bytes) ∧
    (start ⟨[0x7F], false⟩ id).src.queue = [0x7F] := by decide

/-- The encodings of −1, one byte, and of 2^34, six bytes, copied to IBUF and to a source: the inner hypotheses of
both legs, inside and outside the range. -/
theorem witness_SignedRoundTrip :
    let s := start noBytes fun b => { b with operand := ONES }
    let t := start noBytes fun b => { b with operand := 0x400000000 }
    let bytes : List U8 := [0x80, 0x80, 0x80, 0x80, 0xC0, 0x00]
    s.blk.status.busy = false ∧ t.blk.status.busy = false ∧
    encSLen s.blk.operand = 1 ∧ encSLen t.blk.operand = 6 ∧
    (runCommand .encs 1 s).map (fun u => (List.range 1).map u.blk.outputAt) = some [0x7F] ∧
    (runCommand .encs 6 t).map (fun u => (List.range 6).map u.blk.outputAt) = some bytes ∧
    ((holding [0x7F] 1).blk.status.busy = false ∧ (holding [0x7F] 1).blk.ilen.toNat = 1 ∧
      (holding [0x7F] 1).blk.inputAt 0 = 0x7F) ∧
    ((holding bytes 6).blk.ilen.toNat = 6 ∧ (List.range 6).map (holding bytes 6).blk.inputAt = bytes) ∧
    ((start ⟨bytes, false⟩ id).blk.status.busy = false ∧ (start ⟨bytes, false⟩ id).src.queue = bytes) ∧
    (start ⟨[0x7F], false⟩ id).src.queue = [0x7F] := by decide

/-- The second clause of SignedRoundTrip. -/
theorem witness_SignedRoundTrip_range :
    lastDecs.Inv ∧ lastDecs.blk.phase = .run ∧ signedDecoder lastDecs.blk.op = true ∧
    ∃ t, engineStep lastDecs = .next t :=
  ⟨inv_lastDecs, by decide, by decide, _, rfl⟩

theorem witness_ConcatenatedStreamDecodes :
    (0x7FFFFFFFFFFFFFFF#64).toNat < 2 ^ 63 ∧ (0#64).toNat < 2 ^ 63 ∧
    let s := start ⟨List.replicate 8 0xFF ++ [0x7F, 0x00], true⟩ id
    s.blk.status.busy = false ∧
    s.src = ⟨(List.range (encULen 0x7FFFFFFFFFFFFFFF)).map (encUByte 0x7FFFFFFFFFFFFFFF) ++
      (List.range (encULen 0)).map (encUByte 0), true⟩ := by decide

end Sys2Proof.Tests
end

section
/-! SUPPORT. The invariant taken apart by phase (10_state.md R48): a block at rest, a block in the loop of one operation,
a block in FAULTED. The procedures of the block are then lemmas between the three. -/

namespace Sys2Proof.Machine

/-! ## The opcode predicates on a known operation -/

@[simp] theorem opcode_inj {i j : Instr} : opcode i = opcode j ↔ i = j := by
  cases i <;> cases j <;> decide

@[simp] theorem unsignedDecoder_opcode (i : Instr) : unsignedDecoder (opcode i) = decide (i = .decu ∨ i = .readu) := by
  cases i <;> rfl

@[simp] theorem signedDecoder_opcode (i : Instr) : signedDecoder (opcode i) = decide (i = .decs ∨ i = .reads) := by
  cases i <;> rfl

@[simp] theorem readsInput_opcode (i : Instr) : readsInput (opcode i) = decide (i = .decu ∨ i = .decs) := by
  cases i <;> rfl

/-- No command has KIND 3 (R76). -/
theorem kindField_opcode_ne (i : Instr) : kindField (opcode i) ≠ 3 := by
  cases i <;> decide

/-- The opcode map refuses an OP by its own bits (R77). -/
theorem eq_illegalOp_of_decodeOp {op : BitVec 3} {e : DecodeError} (h : decodeOp op = .error e) :
    e = .illegalOp op := by
  unfold decodeOp at h
  split at h <;> simp_all

/-- Every OP but the two of KIND 3 is the opcode of a command (R76, R77). -/
theorem exists_opcode_of_kindField_ne {op : BitVec 3} (h : kindField op ≠ 3) : ∃ i, op = opcode i := by
  cases hd : decodeOp op with
  | ok i => exact ⟨i, eq_opcode_of_decodeOp hd⟩
  | error e => exact absurd ((decodeOp_error_iff op).mp (eq_illegalOp_of_decodeOp hd ▸ hd)) h

/-- The most bytes an operation emits or consumes: its cap, or the size of OBUF (R48 item 4). -/
def maxBytes (op : BitVec 3) : Nat :=
  if unsignedDecoder op then Config.capU else if signedDecoder op then Config.capS else Config.obufSize

/-- No OP is of both decoder families. -/
theorem unsignedDecoder_of_signedDecoder :
    ∀ {op : BitVec 3}, signedDecoder op = true → unsignedDecoder op = false := by
  decide

/-- The bounds of R48 item 4 as one. -/
theorem le_maxBytes_iff (op : BitVec 3) (n : Nat) :
    n ≤ maxBytes op ↔
      n ≤ 10 ∧ (unsignedDecoder op = true → n ≤ 9) ∧ (signedDecoder op = true → n ≤ 5) := by
  have hsu := @unsignedDecoder_of_signedDecoder op
  cases hs : signedDecoder op
  · cases hu : unsignedDecoder op
    · simp [maxBytes, hs, hu]
    · simp [maxBytes, Config.capU, hu]; omega
  · simp [maxBytes, Config.capS, hs, hsu hs]; omega

/-! ## Bytes of the buffers by index -/

/-- A byte of IBUF by its index. -/
theorem Block.inputAt_of_lt (b : Block) {k : Nat} (h : k < 16) : b.inputAt k = b.ibuf[k] := by
  simp [Block.inputAt, h]

/-- The byte emitted stands in OBUF[n] (R111, R131). -/
theorem Block.outputAt_emit_self (b : Block) (x : U8) (h : b.status.nbytes.toNat < 10) :
    (b.emit x h).outputAt b.status.nbytes.toNat = x := by
  simp [Block.outputAt, h]

/-- Emission changes no byte of OBUF but OBUF[n] (R36). -/
theorem Block.outputAt_emit_of_ne (b : Block) (x : U8) (h : b.status.nbytes.toNat < 10) {k : Nat}
    (hk : k ≠ b.status.nbytes.toNat) : (b.emit x h).outputAt k = b.outputAt k := by
  simp [Block.outputAt, Vector.toList_set, List.getElem?_set_ne (Ne.symm hk)]

/-! ## The three phases of the invariant -/

/-- What the invariant says in every phase: the legal values of ILEN and the bounds of NBYTES and OBUF
(R34, R48 items 4 and 7). -/
structure Block.Bounded (b : Block) : Prop where
  ilen_le   : b.ilen.toNat ≤ 16
  nbytes_le : b.status.nbytes.toNat ≤ maxBytes b.op
  obuf_zero : ∀ i : Fin 10, b.status.nbytes.toNat ≤ i.val → b.obuf[i] = 0

/-- A block in phase IDLE that satisfies the invariant. -/
structure Block.Resting (b : Block) : Prop where
  bounded    : b.Bounded
  phase      : b.phase = .idle
  not_busy   : b.status.busy = false
  not_fault  : b.status.fault = false
  err_result : b.status.err ≠ .none → b.result = 0

/-- The outputs of a busy block (R24, R90, R173). -/
structure Block.Partial (b : Block) : Prop where
  busy        : b.status.busy = true
  not_done    : b.status.done = false
  err_none    : b.status.err = .none
  caphit_off  : b.status.caphit = false
  result_zero : b.result = 0

/-- The loop invariant of each operation. -/
def Block.Loop (b : Block) : Instr → Prop
  | .encu => b.EncuLoop
  | .encs => b.EncsLoop
  | .decu => b.DecoderLoop Config.capU ∧ b.InputLoop ∧ b.status.nbytes.toNat ≤ b.ilen.toNat
  | .decs => b.DecoderLoop Config.capS ∧ b.InputLoop ∧ b.status.nbytes.toNat ≤ b.ilen.toNat
  | .readu => b.DecoderLoop Config.capU
  | .reads => b.DecoderLoop Config.capS

/-- The unsigned decoders share their loop invariant. -/
theorem Block.Loop.unsigned {b : Block} {i : Instr} (h : b.Loop i) (hi : i = .decu ∨ i = .readu) :
    b.DecoderLoop Config.capU := by
  obtain rfl | rfl := hi
  · exact h.1
  · exact h

/-- The signed decoders share their loop invariant. -/
theorem Block.Loop.signed {b : Block} {i : Instr} (h : b.Loop i) (hi : i = .decs ∨ i = .reads) :
    b.DecoderLoop Config.capS := by
  obtain rfl | rfl := hi
  · exact h.1
  · exact h

/-- The in-memory decoders share what they know of IBUF. -/
theorem Block.Loop.input {b : Block} {i : Instr} (h : b.Loop i) (hi : i = .decu ∨ i = .decs) :
    b.InputLoop ∧ b.status.nbytes.toNat ≤ b.ilen.toNat := by
  obtain rfl | rfl := hi
  · exact h.2
  · exact h.2

/-- A block in phase RUN, in the loop of operation `i`, that satisfies the invariant. -/
structure Block.Looping (b : Block) (i : Instr) : Prop where
  bounded   : b.Bounded
  outputs   : b.Partial
  phase     : b.phase = .run
  op_eq     : b.op = opcode i
  not_fault : b.status.fault = false
  loop      : b.Loop i

/-- A block in phase FAULTED that satisfies the invariant. -/
structure Block.Halted (b : Block) : Prop where
  bounded : b.Bounded
  outputs : b.Partial
  phase   : b.phase = .faulted
  fault   : b.status.fault = true

/-- Codes of ERR are at most 3 (R151). -/
theorem ErrCode.code_le (e : ErrCode) : e.code.toNat ≤ 3 := by
  cases e <;> decide

/-- R48, from the bounds and what a phase says of the flags and of the error. -/
theorem Block.Bounded.r48 {b : Block} (h : b.Bounded) (busy : b.status.busy = true ↔ b.phase ≠ .idle)
    (fault : b.status.fault = true ↔ b.phase = .faulted) (done : b.status.done = true → b.status.busy = false)
    (input : b.phase = .run → readsInput b.op = true → b.status.nbytes.toNat ≤ b.ilen.toNat)
    (err : b.status.err ≠ .none → b.result = 0) : b.R48 := by
  obtain ⟨h10, hu, hs⟩ := (le_maxBytes_iff _ _).mp h.nbytes_le
  exact ⟨busy, fault, done, h10, hu, hs, input, b.status.err.code_le, err, h.obuf_zero⟩

/-- The bounds are part of the invariant. -/
theorem State.Inv.bounded {s : State} (h : s.Inv) : s.blk.Bounded :=
  ⟨h.ilen, (le_maxBytes_iff _ _).mpr ⟨h.r48.nbytes_le, h.r48.nbytes_unsigned, h.r48.nbytes_signed⟩, h.r48.obuf_zero⟩

/-- In the invariant a busy block shows partial outputs. -/
theorem State.Inv.outputs {s : State} (h : s.Inv) (hb : s.blk.status.busy = true) : s.blk.Partial :=
  ⟨hb, by
    cases hd : s.blk.status.done
    · rfl
    · exact absurd (h.r48.done_not_busy hd) (by simp [hb]),
   h.running.err_none hb, h.running.caphit_off hb, h.running.result_zero hb⟩

/-- The loop invariant of the running operation is part of the invariant. -/
theorem State.Inv.loop {s : State} (h : s.Inv) (hp : s.blk.phase = .run) {i : Instr} (ho : s.blk.op = opcode i) :
    s.blk.Loop i := by
  obtain ⟨_, _, _, _, encu, encs, unsigned, signed, input⟩ := h.running
  have hn := h.r48.nbytes_ilen hp
  rw [ho] at encu encs unsigned signed input hn
  cases i with
  | encu => exact encu hp rfl
  | encs => exact encs hp rfl
  | decu => exact ⟨unsigned hp rfl, input hp rfl, hn rfl⟩
  | decs => exact ⟨signed hp rfl, input hp rfl, hn rfl⟩
  | readu => exact unsigned hp rfl
  | reads => exact signed hp rfl

/-- A block at rest satisfies the invariant. -/
theorem Block.Resting.inv {s : State} (h : s.blk.Resting) : s.Inv := by
  obtain ⟨hb, hp, hbusy, hf, he⟩ := h
  exact ⟨hb.r48 (by simp [hbusy, hp]) (by simp [hf, hp]) (fun _ => hbusy) (by simp [hp]) he, hb.ilen_le,
    by constructor <;> simp [hbusy, hp], by simp [hp]⟩

/-- A block in a loop satisfies the invariant. -/
theorem Block.Looping.inv {s : State} {i : Instr} (h : s.blk.Looping i) : s.Inv := by
  obtain ⟨hb, ⟨hbusy, hd, he, hc, hr⟩, hp, ho, hf, hl⟩ := h
  have hinput : readsInput s.blk.op = true → s.blk.InputLoop ∧ s.blk.status.nbytes.toNat ≤ s.blk.ilen.toNat :=
    fun h => hl.input (by simpa [ho] using h)
  exact ⟨hb.r48 (by simp [hbusy, hp]) (by simp [hf, hp]) (by simp [hd]) (fun _ h => (hinput h).2) (by simp [he]),
    hb.ilen_le,
    { result_zero := fun _ => hr
      err_none := fun _ => he
      caphit_off := fun _ => hc
      op_legal := fun _ => ho ▸ kindField_opcode_ne i
      encu := fun _ h => by
        obtain rfl : i = .encu := by simpa [ho] using h
        exact hl
      encs := fun _ h => by
        obtain rfl : i = .encs := by simpa [ho] using h
        exact hl
      unsigned := fun _ h => hl.unsigned (by simpa [ho] using h)
      signed := fun _ h => hl.signed (by simpa [ho] using h)
      input := fun _ h => (hinput h).1 },
    by simp [hp]⟩

/-- A block in FAULTED satisfies the invariant under `P_READS_EOI = fault` (R157). -/
theorem Block.Halted.inv {s : State} (h : s.blk.Halted) (hr : s.readsEoi = .fault) : s.Inv := by
  obtain ⟨hb, ⟨hbusy, hd, he, hc, hres⟩, hp, hf⟩ := h
  exact ⟨hb.r48 (by simp [hbusy, hp]) (by simp [hf, hp]) (by simp [hd]) (by simp [hp]) (by simp [he]), hb.ilen_le,
    by constructor <;> simp [hres, he, hc, hp], fun _ => hr⟩

/-- The invariant by phase. -/
theorem State.inv_iff (s : State) :
    s.Inv ↔ s.blk.Resting ∨ (∃ i, s.blk.Looping i) ∨ (s.blk.Halted ∧ s.readsEoi = .fault) := by
  constructor
  · intro h
    have hbusy := h.r48.busy_iff
    have hfault := h.r48.fault_iff
    cases hp : s.blk.phase with
    | idle => exact .inl ⟨h.bounded, hp, by simpa [hp] using hbusy, by simpa [hp] using hfault, h.r48.err_result⟩
    | run =>
      obtain ⟨i, ho⟩ := exists_opcode_of_kindField_ne (h.running.op_legal hp)
      exact .inr (.inl ⟨i, h.bounded, h.outputs (by simp [hbusy, hp]), hp, ho, by simpa [hp] using hfault,
        h.loop hp ho⟩)
    | faulted =>
      exact .inr (.inr ⟨⟨h.bounded, h.outputs (by simp [hbusy, hp]), hp, by simp [hfault, hp]⟩, h.faulted hp⟩)
  · rintro (h | ⟨i, h⟩ | ⟨h, hr⟩)
    · exact h.inv
    · exact h.inv
    · exact h.inv hr

/-- The invariant reads the block and `P_READS_EOI` only. -/
theorem State.Inv.congr {s t : State} (h : s.Inv) (hb : t.blk = s.blk) (hr : t.readsEoi = s.readsEoi) : t.Inv := by
  obtain ⟨h48, hi, hrun, hf⟩ := h
  constructor <;> rw [hb]
  · exact h48
  · exact hi
  · exact hrun
  · exact hr ▸ hf

/-- The invariant does not read the turns. -/
theorem State.Inv.withTurns {s : State} (h : s.Inv) (ts : List Turn) : (s.withTurns ts).Inv := h.congr rfl rfl

/-! ## The host's writes -/

/-- A reset block is at rest, whatever its hidden registers hold (R47, R170). -/
theorem Block.afterReset_resting (op : BitVec 3) (v rem endv acc mask : U64) :
    (Block.afterReset op v rem endv acc mask).Resting :=
  ⟨⟨Nat.zero_le _, Nat.zero_le _, fun _ _ => Vector.getElem_replicate _⟩, rfl, rfl, rfl, fun _ => rfl⟩

/-- ILEN stores at most 16 (R34). -/
theorem ilenOf_le (w : U64) : (ilenOf w).toNat ≤ 16 := by
  simp only [ilenOf, BitVec.toNat_ofNat]; omega

/-- A register write leaves a block at rest (R91). -/
theorem Block.Resting.writeReg {b : Block} (h : b.Resting) (r : Reg) (w : U64) : (b.writeReg r w).Resting := by
  obtain ⟨⟨hi, hn, ho⟩, hp, hb, hf, he⟩ := h
  cases r with
  | ilen => exact ⟨⟨ilenOf_le w, hn, ho⟩, hp, hb, hf, he⟩
  | operand | ibuf | cmd | result | status | obuf | reserved => exact ⟨⟨hi, hn, ho⟩, hp, hb, hf, he⟩

/-- IllegalStart leaves a block at rest (R94). -/
theorem Block.Resting.illegalStart {b : Block} (h : b.Resting) : b.illegalStart.Resting :=
  ⟨⟨h.bounded.ilen_le, Nat.zero_le _, fun _ _ => Vector.getElem_replicate _⟩, h.phase, h.not_busy, h.not_fault,
    fun _ => rfl⟩

/-- A decoder's loop invariant holds where Start leaves the block (R114, R120, R134, R140). -/
theorem Block.start_decoderLoop (b : Block) (op : BitVec 3) {cap : Nat} (hcap : 0 < cap) :
    (b.start op).clearAcc.DecoderLoop cap :=
  ⟨hcap, Nat.zero_lt_one, rfl, rfl⟩

/-- What an in-memory decoder knows of IBUF before it reads a byte. -/
theorem Block.start_inputLoop (b : Block) (op : BitVec 3) : (b.start op).clearAcc.InputLoop :=
  ⟨rfl, fun _ h => absurd h (Nat.not_lt_zero _)⟩

/-- The loop invariant of every operation holds where Start leaves the block (R110, R130). -/
theorem Block.begun_loop (i : Instr) (b : Block) : (b.begun i).Loop i := by
  have noByte {P : Prop} {k : Nat} (h : k < 0) : P := absurd h (Nat.not_lt_zero k)
  cases i with
  | encu => exact ⟨Nat.zero_lt_succ _, (BitVec.ushiftRight_zero _).symm, rfl, noByte, fun _ => noByte⟩
  | encs => exact ⟨Nat.zero_lt_succ _, BitVec.sshiftRight_zero.symm, rfl, rfl, noByte, fun _ => noByte⟩
  | decu => exact ⟨b.start_decoderLoop _ (by decide), b.start_inputLoop _, Nat.zero_le _⟩
  | decs => exact ⟨b.start_decoderLoop _ (by decide), b.start_inputLoop _, Nat.zero_le _⟩
  | readu => exact b.start_decoderLoop _ (by decide)
  | reads => exact b.start_decoderLoop _ (by decide)

/-- A command on a block at rest begins its loop (R93). -/
theorem Block.Resting.begun {b : Block} (h : b.Resting) (i : Instr) : (b.begun i).Looping i := by
  have hl := b.begun_loop i
  have ho : ∀ k : Fin 10, (Vector.replicate 10 (0 : U8))[k] = 0 := fun _ => Vector.getElem_replicate _
  cases i <;>
    exact ⟨⟨h.bounded.ilen_le, Nat.zero_le _, fun k _ => ho k⟩, ⟨rfl, rfl, rfl, rfl, rfl⟩, rfl, rfl, h.not_fault, hl⟩

/-- No loop invariant reads HAZARD. -/
theorem Block.Loop.setHazard {b : Block} {i : Instr} (h : b.Loop i) : b.setHazard.Loop i := by
  have decoder {cap : Nat} (h : b.DecoderLoop cap) : b.setHazard.DecoderLoop cap :=
    ⟨h.nbytes_lt, h.acc_lt, h.mask_eq, h.obuf_zero⟩
  have input (h : b.InputLoop) : b.setHazard.InputLoop := ⟨h.acc_eq, h.conts⟩
  cases i with
  | encu => exact ⟨h.nbytes_lt, h.v_eq, h.rem_eq, h.more, h.emitted⟩
  | encs => exact ⟨h.nbytes_lt, h.v_eq, h.rem_eq, h.endv_eq, h.more, h.emitted⟩
  | decu => exact ⟨decoder h.1, input h.2.1, h.2.2⟩
  | decs => exact ⟨decoder h.1, input h.2.1, h.2.2⟩
  | readu => exact decoder h
  | reads => exact decoder h

/-- The bounds do not read HAZARD. -/
theorem Block.Bounded.setHazard {b : Block} (h : b.Bounded) : b.setHazard.Bounded :=
  ⟨h.ilen_le, h.nbytes_le, h.obuf_zero⟩

/-- The outputs of a busy block are the same under HAZARD. -/
theorem Block.Partial.setHazard {b : Block} (h : b.Partial) : b.setHazard.Partial :=
  ⟨h.busy, h.not_done, h.err_none, h.caphit_off, h.result_zero⟩

/-- A host write keeps the invariant: on a block at rest by its effect, on a busy one because nothing reads HAZARD
(R91, R92). -/
theorem State.Inv.hostWrite {s : State} (h : s.Inv) {f : Block → Block} (hf : WriteEffect f) :
    (s.withBlk (s.blk.hostWrite f)).Inv := by
  obtain h | ⟨i, h⟩ | ⟨h, hr⟩ := s.inv_iff.mp h
  · rw [Block.hostWrite_idle h.not_busy]
    cases hf with
    | command i => exact (h.begun i).inv
    | illegal => exact h.illegalStart.inv
    | register r w => exact (h.writeReg r w).inv
  · rw [Block.hostWrite_busy h.outputs.busy]
    exact Block.Looping.inv (i := i)
      ⟨h.bounded.setHazard, h.outputs.setHazard, h.phase, h.op_eq, h.not_fault, h.loop.setHazard⟩
  · rw [Block.hostWrite_busy h.outputs.busy]
    exact Block.Halted.inv ⟨h.bounded.setHazard, h.outputs.setHazard, h.phase, h.fault⟩ hr

/-- A host action keeps the invariant. -/
theorem State.Inv.hostAct {s t : State} (h : s.Inv) {a : HostAction} (ha : hostAct a s = .next t) : t.Inv := by
  obtain ⟨_, _, f, -, hf, e⟩ | ⟨_, -, e⟩ | ⟨_, -, e⟩ | ⟨-, e⟩ | ⟨-, e⟩ := hostAct_cases a s <;>
    obtain rfl := Host.Outcome.next.inj (e.symm.trans ha)
  · exact h.hostWrite hf
  · exact h.congr rfl rfl
  · exact h.congr rfl rfl
  · exact h.congr rfl rfl
  · exact (Block.afterReset_resting _ _ _ _ _ _).inv

/-! ## The engine's steps -/

/-- Finish leaves a block within its bounds at rest (R99). -/
theorem Block.Bounded.finish {b : Block} (h : b.Bounded) (hf : b.status.fault = false) {e : ErrCode} {w : U64}
    (hw : e ≠ .none → w = 0) : (b.finish e w).Resting :=
  ⟨⟨h.ilen_le, h.nbytes_le, h.obuf_zero⟩, rfl, rfl, hf, hw⟩

/-- The bounds do not read what ENCU, ENCS, a cap hit and the sign extension write. -/
theorem Block.Bounded.advanceEncu {b : Block} (h : b.Bounded) : b.advanceEncu.Bounded :=
  ⟨h.ilen_le, h.nbytes_le, h.obuf_zero⟩

theorem Block.Bounded.advanceEncs {b : Block} (h : b.Bounded) : b.advanceEncs.Bounded :=
  ⟨h.ilen_le, h.nbytes_le, h.obuf_zero⟩

theorem Block.Bounded.capHit {b : Block} (h : b.Bounded) : b.capHit.Bounded :=
  ⟨h.ilen_le, h.nbytes_le, h.obuf_zero⟩

theorem Block.Bounded.addMask {b : Block} (h : b.Bounded) : b.addMask.Bounded :=
  ⟨h.ilen_le, h.nbytes_le, h.obuf_zero⟩

/-- Fault leaves the loop for FAULTED (R100). -/
theorem Block.Looping.faultStop {b : Block} {i : Instr} (h : b.Looping i) : b.faultStop.Halted :=
  ⟨⟨h.bounded.ilen_le, h.bounded.nbytes_le, h.bounded.obuf_zero⟩,
    ⟨h.outputs.busy, h.outputs.not_done, h.outputs.err_none, h.outputs.caphit_off, h.outputs.result_zero⟩, rfl, rfl⟩

/-! ### Encoders -/

/-- Emission keeps the bounds while OBUF has room (R53). -/
theorem Block.Bounded.emit {b : Block} (h : b.Bounded) (hop : maxBytes b.op = 10) (x : U8)
    (hn : b.status.nbytes.toNat < 10) : (b.emit x hn).Bounded := by
  have hc : (b.emit x hn).status.nbytes.toNat = b.status.nbytes.toNat + 1 := toNat_add_one (by omega)
  refine ⟨h.ilen_le, ?_, fun i hi => ?_⟩
  · rw [hc, Block.emit_op, hop]; omega
  · rw [hc] at hi
    have := h.obuf_zero i (by omega)
    simp only [Block.emit_obuf, Fin.getElem_fin] at this ⊢
    rw [Vector.getElem_set_ne _ _ (by omega), this]

/-- Emission keeps the bytes emitted before and adds the byte of group n. -/
theorem Block.emitted_emit {b : Block} (g : Nat → U8) (hn : b.status.nbytes.toNat < 10)
    (h : ∀ k, k < b.status.nbytes.toNat → b.outputAt k = g k) (k : Nat) (hk : k < b.status.nbytes.toNat + 1) :
    (b.emit (g b.status.nbytes.toNat) hn).outputAt k = g k := by
  obtain hlt | rfl := Nat.lt_succ_iff_lt_or_eq.mp hk
  · rw [Block.outputAt_emit_of_ne _ _ _ (by omega), h k hlt]
  · exact Block.outputAt_emit_self _ _ _

/-- An iteration that goes on stays in its loop where the bounds and the loop invariant hold on. -/
theorem Block.Looping.goOn {b c : Block} {i : Instr} (h : b.Looping i) (hb : c.Bounded)
    (hst : c.status = b.status.counted) (hr : c.result = b.result) (hp : c.phase = b.phase) (ho : c.op = b.op)
    (hl : c.Loop i) : c.Looping i := by
  obtain ⟨-, ⟨busy, done, err, caphit, result⟩, phase, op, fault, -⟩ := h
  exact ⟨hb, ⟨by simpa [hst], by simpa [hst], by simpa [hst], by simpa [hst], hr.trans result⟩, hp.trans phase,
    ho.trans op, by simpa [hst], hl⟩

/-- An iteration of ENCU that goes on keeps its loop invariant (R111): what remains is not 0, so OBUF has room. -/
theorem Block.EncuLoop.emit_advance {b : Block} (h : b.EncuLoop) (hr : b.rem ≠ 0) (hn : b.status.nbytes.toNat < 10) :
    (b.emit (groupByte b.v true) hn).advanceEncu.EncuLoop := by
  obtain ⟨-, hv, hrem, -, hout⟩ := h
  have hc : (b.emit (groupByte b.v true) hn).advanceEncu.status.nbytes.toNat = b.status.nbytes.toNat + 1 :=
    toNat_add_one (by omega)
  refine ⟨?_, ?_, ?_, fun _ => hr, fun k hk => ?_⟩
  · have := (encU_more b.operand b.status.nbytes.toNat).mp (hrem ▸ hr)
    have := encULen_le_ten b.operand
    omega
  · rw [hc]; exact hrem
  · rw [hc]
    simp only [Block.advanceEncu_rem, Block.emit_rem, hrem, ← BitVec.shiftRight_add]
    rfl
  · have := Block.emitted_emit (fun k => groupByte (b.operand >>> (7 * k)) true) hn hout k (hc ▸ hk)
    simp only [← hv] at this
    exact this

/-- An iteration of ENCS that goes on keeps its loop invariant (R131): the value does not fit in the groups emitted,
so OBUF has room. -/
theorem Block.EncsLoop.emit_advance {b : Block} (h : b.EncsLoop) (hm : b.moreSigned = true)
    (hn : b.status.nbytes.toNat < 10) : (b.emit (groupByte b.v true) hn).advanceEncs.EncsLoop := by
  obtain ⟨-, hv, hrem, hend, -, hout⟩ := h
  have hc : (b.emit (groupByte b.v true) hn).advanceEncs.status.nbytes.toNat = b.status.nbytes.toNat + 1 :=
    toNat_add_one (by omega)
  have hfit : fitsSigned b.operand.toInt (b.status.nbytes.toNat + 1) = false := by
    rw [← Bool.not_eq_true, ← noMore_iff, ← hrem, ← hend, ← hv]
    rintro ⟨hterm, hsign⟩
    rw [Block.moreSigned, hsign] at hm
    simp [hterm] at hm
  refine ⟨?_, ?_, ?_, hend, fun _ => ?_, fun k hk => ?_⟩
  · have := mt (fitsSigned_ten b.operand) (Bool.not_eq_true _ ▸ hfit)
    omega
  · rw [hc]; exact hrem
  · rw [hc]
    simp only [Block.advanceEncs_rem, Block.emit_rem, hrem, ← BitVec.sshiftRight_add]
    rfl
  · rw [hc]; exact hfit
  · have := Block.emitted_emit (fun k => groupByte (b.operand.sshiftRight (7 * k)) true) hn hout k (hc ▸ hk)
    simp only [← hv] at this
    exact this

/-- One iteration of ENCU keeps the invariant (R111). -/
theorem Block.Looping.iterEncu {s t : State} (h : s.blk.Looping .encu) (ht : iterEncu s = .next t) : t.Inv := by
  have hb := fun x => h.bounded.emit (h.op_eq ▸ rfl) x
  unfold Machine.iterEncu at ht
  split at ht
  · obtain ⟨hn, rfl⟩ := emitThen_next ht
    exact (h.goOn (hb _ hn).advanceEncu rfl rfl rfl rfl (Block.EncuLoop.emit_advance h.loop ‹_› hn)).inv
  · obtain ⟨hn, rfl⟩ := emitThen_next ht
    exact ((hb _ hn).finish h.not_fault (absurd rfl)).inv

/-- One iteration of ENCS keeps the invariant (R131). -/
theorem Block.Looping.iterEncs {s t : State} (h : s.blk.Looping .encs) (ht : iterEncs s = .next t) : t.Inv := by
  have hb := fun x => h.bounded.emit (h.op_eq ▸ rfl) x
  unfold Machine.iterEncs at ht
  split at ht
  · obtain ⟨hn, rfl⟩ := emitThen_next ht
    exact (h.goOn (hb _ hn).advanceEncs rfl rfl rfl rfl (Block.EncsLoop.emit_advance h.loop ‹_› hn)).inv
  · obtain ⟨hn, rfl⟩ := emitThen_next ht
    exact ((hb _ hn).advanceEncs.finish h.not_fault (absurd rfl)).inv

/-! ### Decoders -/

/-- The byte counter after a group below the cap. -/
theorem Block.DecoderLoop.nbytes_accumulate {b : Block} {cap : Nat} (h : b.DecoderLoop cap) (hcap : cap ≤ 9) (x : U8) :
    (b.accumulate x).status.nbytes.toNat = b.status.nbytes.toNat + 1 :=
  toNat_add_one (by have := h.nbytes_lt; omega)

/-- GroupAccumulate keeps the loop invariant of a decoder below its cap (R98). -/
theorem Block.DecoderLoop.accumulate {b : Block} {cap : Nat} (h : b.DecoderLoop cap) (hcap : cap ≤ 9) (x : U8)
    (hne : (b.accumulate x).status.nbytes.toNat ≠ cap) : (b.accumulate x).DecoderLoop cap := by
  have hc := h.nbytes_accumulate hcap x
  obtain ⟨hlt, hacc, hmask, hobuf⟩ := h
  have hadd := toNat_accum (by omega) hacc x
  refine ⟨by omega, ?_, ?_, hobuf⟩
  · rw [hc, Block.accumulate_acc, hadd.1]; exact hadd.2
  · rw [hc, Block.accumulate_mask, hmask, ← BitVec.shiftLeft_add]; rfl

/-- GroupAccumulate of IBUF[n], where it goes on, extends what an in-memory decoder knows of IBUF (R115, R135). -/
theorem Block.InputLoop.accumulate {b : Block} (h : b.InputLoop)
    (hx : contBit (b.inputAt b.status.nbytes.toNat) = true)
    (hc : (b.accumulate (b.inputAt b.status.nbytes.toNat)).status.nbytes.toNat = b.status.nbytes.toNat + 1) :
    (b.accumulate (b.inputAt b.status.nbytes.toNat)).InputLoop := by
  obtain ⟨hacc, hconts⟩ := h
  constructor <;> rw [hc]
  · rw [Block.accumulate_acc, hacc]; rfl
  · intro k hk
    obtain hlt | rfl := Nat.lt_succ_iff_lt_or_eq.mp hk
    · exact hconts k hlt
    · exact hx

/-- A decoder that counts one more group is within the bounds. -/
theorem Block.DecoderLoop.bounded_accumulate {b : Block} (h : b.DecoderLoop (maxBytes b.op)) (hcap : maxBytes b.op ≤ 9)
    (hi : b.ilen.toNat ≤ 16) (x : U8) : (b.accumulate x).Bounded := by
  have hc := h.nbytes_accumulate hcap x
  refine ⟨hi, ?_, fun k _ => ?_⟩
  · rw [hc]; exact h.nbytes_lt
  · rw [Block.accumulate_obuf, h.obuf_zero]; exact Vector.getElem_replicate _

/-- How a decoder completes: from a block within its bounds it leaves a block at rest. -/
def Completes (f : Block → Block) : Prop :=
  ∀ c : Block, c.Bounded → c.status.fault = false → (f c).Resting

/-- The unsigned decoders complete by `Finish(NONE, acc)` (R115). -/
theorem finishAcc_completes : Completes Block.finishAcc := fun _ h hf => h.finish hf (absurd rfl)

/-- The signed decoders complete by SignFinish (R136). -/
theorem signFinish_completes : Completes Block.signFinish := by
  intro c h hf
  apply Block.signFinish_of
  · exact h.addMask.finish hf (absurd rfl)
  · exact h.finish hf (absurd rfl)

/-- The loop body of a decoder completes, or goes on in the loop where its invariant holds on (R158). -/
theorem Block.Looping.consume {b : Block} {i : Instr} (h : b.Looping i) (hd : b.DecoderLoop (maxBytes (opcode i)))
    (hcap : maxBytes (opcode i) ≤ 9) {f : Block → Block} (hf : Completes f) {x : U8}
    (hl : contBit x = true → (b.accumulate x).DecoderLoop (maxBytes (opcode i)) → (b.accumulate x).Loop i) :
    (b.consume (maxBytes (opcode i)) f x).Resting ∨ (b.consume (maxBytes (opcode i)) f x).Looping i := by
  have hb : (b.accumulate x).Bounded :=
    Block.DecoderLoop.bounded_accumulate (h.op_eq ▸ hd) (h.op_eq ▸ hcap) h.bounded.ilen_le x
  obtain ⟨-, e⟩ | ⟨-, -, e⟩ | ⟨hx, hne, e⟩ := b.consume_cases (maxBytes (opcode i)) f x <;> rw [e]
  · exact .inl (hf _ hb h.not_fault)
  · exact .inl (hf _ hb.capHit h.not_fault)
  · exact .inr (h.goOn hb rfl rfl rfl rfl (hl hx (hd.accumulate hcap x hne)))

/-- One iteration of an in-memory decoder keeps the invariant (R115, R135). -/
theorem Block.Looping.decodeInput {s : State} {i : Instr} (h : s.blk.Looping i)
    (hi : i = .decu ∨ i = .decs) {f : Block → Block} (hf : Completes f) :
    (s.withBlk (s.blk.decodeInput (maxBytes (opcode i)) f)).Inv := by
  have hcap : maxBytes (opcode i) ≤ 9 := by obtain rfl | rfl := hi <;> decide
  have hd : s.blk.DecoderLoop (maxBytes (opcode i)) := by obtain rfl | rfl := hi <;> exact h.loop.1
  obtain ⟨hin, -⟩ := h.loop.input hi
  obtain ⟨-, e⟩ | ⟨hlt, e⟩ := s.blk.decodeInput_cases (maxBytes (opcode i)) f <;> rw [e]
  · exact (h.bounded.finish h.not_fault fun _ => rfl).inv
  · rw [← s.blk.inputAt_of_lt s.blk.status.nbytes.isLt]
    have hc := hd.nbytes_accumulate hcap (s.blk.inputAt s.blk.status.nbytes.toNat)
    have hloop (hx : contBit (s.blk.inputAt s.blk.status.nbytes.toNat) = true)
        (hd' : (s.blk.accumulate (s.blk.inputAt s.blk.status.nbytes.toNat)).DecoderLoop (maxBytes (opcode i))) :
        (s.blk.accumulate (s.blk.inputAt s.blk.status.nbytes.toNat)).Loop i := by
      obtain rfl | rfl := hi <;> exact ⟨hd', hin.accumulate hx hc, hc ▸ hlt⟩
    obtain hr | hl := h.consume hd hcap hf hloop
    · exact hr.inv
    · exact hl.inv

/-- One iteration of a streaming decoder keeps the invariant, where what it does at end-of-input does (R121, R141). -/
theorem Block.Looping.decodeStream {s t : State} {i : Instr} (h : s.blk.Looping i)
    (hi : i = .readu ∨ i = .reads) {f e : Block → Block} (hf : Completes f) (he : (s.withBlk (e s.blk)).Inv)
    (ht : decodeStream (maxBytes (opcode i)) f e s = .next t) : t.Inv := by
  have hcap : maxBytes (opcode i) ≤ 9 := by obtain rfl | rfl := hi <;> decide
  have hd : s.blk.DecoderLoop (maxBytes (opcode i)) := by obtain rfl | rfl := hi <;> exact h.loop
  obtain ⟨x, rest, -, e⟩ | ⟨-, -, e⟩ | ⟨-, -, e⟩ := decodeStream_cases (maxBytes (opcode i)) f e s <;> rw [e] at ht
  · obtain rfl := Host.Outcome.next.inj ht
    obtain hr | hl := h.consume hd hcap hf (x := x) fun _ hd' => by obtain rfl | rfl := hi <;> exact hd'
    · exact hr.inv
    · exact hl.inv
  · obtain rfl := Host.Outcome.next.inj ht
    exact he
  · cases ht

/-- `ReadsEOI()` keeps the invariant: UNEXPECTED_EOI at rest, or FAULTED under `P_READS_EOI = fault` (R146). -/
theorem Block.Looping.readsEoi {s : State} {i : Instr} (h : s.blk.Looping i) :
    (s.withBlk (s.blk.readsEoi s.readsEoi)).Inv := by
  cases hr : s.readsEoi with
  | error => exact (h.bounded.finish h.not_fault fun _ => rfl).inv
  | fault => exact Block.Halted.inv h.faultStop hr

/-- One iteration of any operation keeps the invariant. -/
theorem Block.Looping.iterate {s t : State} {i : Instr} (h : s.blk.Looping i) (ht : iterate i s = .next t) : t.Inv := by
  cases i with
  | encu => exact h.iterEncu ht
  | encs => exact h.iterEncs ht
  | decu =>
    obtain rfl := Host.Outcome.next.inj ht
    exact h.decodeInput (.inl rfl) finishAcc_completes
  | decs =>
    obtain rfl := Host.Outcome.next.inj ht
    exact h.decodeInput (.inr rfl) signFinish_completes
  | readu =>
    exact h.decodeStream (e := fun b => b.finish .unexpectedEoi 0) (.inl rfl) finishAcc_completes
      (h.bounded.finish h.not_fault fun _ => rfl).inv ht
  | reads => exact h.decodeStream (.inr rfl) signFinish_completes h.readsEoi ht

/-- An engine step keeps the invariant: in it a running block is in the loop of its operation (R97). -/
theorem State.Inv.engineStep {s t : State} (h : s.Inv) (hp : s.blk.phase = .run) (ht : engineStep s = .next t) :
    t.Inv := by
  obtain ⟨i, ho, hi⟩ := engineStep_next ht
  obtain hr | ⟨j, hl⟩ | ⟨hh, -⟩ := s.inv_iff.mp h
  · simp [hr.phase] at hp
  · obtain rfl : i = j := by simpa [ho] using hl.op_eq
    exact hl.iterate hi
  · simp [hh.phase] at hp

/-- Settles O32, by phase: a block at rest, in a loop or in FAULTED stays in one of the three under every turn. -/
theorem everyStepKeepsInv : Obligations.EveryStepKeepsInv := by
  intro s t h hstep
  obtain ⟨-, hen, he⟩ | ⟨rest, -, hen, he⟩ | ⟨rest, -, -, rfl⟩ | ⟨_, rest, -, ha⟩ | ⟨rest, -, rfl⟩ := step_cases hstep
  · exact h.engineStep (engineEnabled_run hen).1 he
  · exact (h.withTurns rest).engineStep (engineEnabled_run hen).1 he
  · exact h.withTurns rest
  · exact (h.withTurns rest).hostAct ha
  · obtain ⟨hblk, -, -, heoi⟩ := waitPoll_frame (s.withTurns rest)
    exact h.congr hblk heoi

end Sys2Proof.Machine
end

section
/-! SUPPORT. What an engine step leaves unchanged (20_memory.md R52, R53, R58), and the statements on frames and on the
outputs of a busy block. -/

namespace Sys2Proof.Machine

/-! ## Frames of the block -/

/-- What every procedure of the engine keeps of a block; FAULT it may set (R100) but not clear. -/
structure Block.EngineFrame (b c : Block) : Prop where
  operand : c.operand = b.operand
  ilen    : c.ilen = b.ilen
  ibuf    : c.ibuf = b.ibuf
  hazard  : c.status.hazard = b.status.hazard
  op      : c.op = b.op
  endv    : c.endv = b.endv
  fault   : b.status.fault = true → c.status.fault = true

/-- What the procedures of a decoder keep besides: no output byte and no encoder register changes. -/
structure Block.DecoderFrame (b c : Block) : Prop extends b.EngineFrame c where
  obuf : c.obuf = b.obuf
  v    : c.v = b.v
  rem  : c.rem = b.rem

/-- What an iteration of an encoder keeps besides: no decoder register and no output byte but OBUF[n] changes. -/
structure Block.EncoderFrame (b c : Block) : Prop extends b.EngineFrame c where
  acc    : c.acc = b.acc
  mask   : c.mask = b.mask
  caphit : c.status.caphit = b.status.caphit
  output : ∀ k, k ≠ b.status.nbytes.toNat → c.outputAt k = b.outputAt k

theorem Block.EngineFrame.trans {b c d : Block} (h : b.EngineFrame c) (g : c.EngineFrame d) : b.EngineFrame d :=
  ⟨g.1.trans h.1, g.2.trans h.2, g.3.trans h.3, g.4.trans h.4, g.5.trans h.5, g.6.trans h.6, g.7 ∘ h.7⟩

theorem Block.DecoderFrame.trans {b c d : Block} (h : b.DecoderFrame c) (g : c.DecoderFrame d) : b.DecoderFrame d :=
  ⟨h.1.trans g.1, g.2.trans h.2, g.3.trans h.3, g.4.trans h.4⟩

theorem Block.finish_decoderFrame (b : Block) (e : ErrCode) (w : U64) : b.DecoderFrame (b.finish e w) :=
  ⟨⟨rfl, rfl, rfl, rfl, rfl, rfl, id⟩, rfl, rfl, rfl⟩

theorem Block.faultStop_decoderFrame (b : Block) : b.DecoderFrame b.faultStop :=
  ⟨⟨rfl, rfl, rfl, rfl, rfl, rfl, fun _ => rfl⟩, rfl, rfl, rfl⟩

theorem Block.accumulate_decoderFrame (b : Block) (x : U8) : b.DecoderFrame (b.accumulate x) :=
  ⟨⟨rfl, rfl, rfl, rfl, rfl, rfl, id⟩, rfl, rfl, rfl⟩

theorem Block.capHit_decoderFrame (b : Block) : b.DecoderFrame b.capHit :=
  ⟨⟨rfl, rfl, rfl, rfl, rfl, rfl, id⟩, rfl, rfl, rfl⟩

theorem Block.addMask_decoderFrame (b : Block) : b.DecoderFrame b.addMask :=
  ⟨⟨rfl, rfl, rfl, rfl, rfl, rfl, id⟩, rfl, rfl, rfl⟩

theorem Block.finishAcc_decoderFrame (b : Block) : b.DecoderFrame b.finishAcc := b.finish_decoderFrame _ _

theorem Block.signFinish_decoderFrame (b : Block) : b.DecoderFrame b.signFinish :=
  b.signFinish_of (b.addMask_decoderFrame.trans b.addMask.finishAcc_decoderFrame) b.finishAcc_decoderFrame

theorem Block.readsEoi_decoderFrame (b : Block) (p : ReadsEoi) : b.DecoderFrame (b.readsEoi p) := by
  cases p with
  | error => exact b.finish_decoderFrame _ _
  | fault => exact b.faultStop_decoderFrame

/-- The loop body of a decoder has its frame where the completion has (R115, R121, R135, R141). -/
theorem Block.consume_decoderFrame (b : Block) (cap : Nat) {f : Block → Block} (hf : ∀ c : Block, c.DecoderFrame (f c))
    (x : U8) : b.DecoderFrame (b.consume cap f x) :=
  have ha := b.accumulate_decoderFrame x
  b.consume_of cap f x ha (ha.trans (hf _)) ((ha.trans (b.accumulate x).capHit_decoderFrame).trans (hf _))

theorem Block.decodeInput_decoderFrame (b : Block) (cap : Nat) {f : Block → Block}
    (hf : ∀ c : Block, c.DecoderFrame (f c)) : b.DecoderFrame (b.decodeInput cap f) := by
  obtain ⟨-, e⟩ | ⟨-, e⟩ := b.decodeInput_cases cap f <;> rw [e]
  · exact b.finish_decoderFrame _ _
  · exact b.consume_decoderFrame cap hf _

/-- Emission, and what an encoder does after it, has the encoder's frame where the latter changes neither OBUF nor the
decoders' registers. -/
theorem Block.emit_encoderFrame (b : Block) (x : U8) (hn : b.status.nbytes.toNat < 10) {c : Block}
    (h : (b.emit x hn).EngineFrame c) (hobuf : c.obuf = (b.emit x hn).obuf) (hacc : c.acc = b.acc)
    (hmask : c.mask = b.mask) (hcap : c.status.caphit = b.status.caphit) : b.EncoderFrame c := by
  have he : b.EngineFrame (b.emit x hn) := ⟨rfl, rfl, rfl, rfl, rfl, rfl, id⟩
  refine ⟨he.trans h, hacc, hmask, hcap, fun k hk => ?_⟩
  rw [← b.outputAt_emit_of_ne x hn hk, Block.outputAt, Block.outputAt, hobuf]

/-! ## Frames of the machine -/

/-- Whether an operation is an encoder (R76). -/
def encodes : Instr → Bool
  | .encu | .encs => true
  | .decu | .decs | .readu | .reads => false

/-- What an engine step of operation `i` keeps (R23, R52, R58): it changes the block within the frame of its family, and
takes at most the head byte of the source, where it streams. -/
structure State.IterationFrame (i : Instr) (s t : State) : Prop where
  turns    : t.turns = s.turns
  answers  : t.answers = s.answers
  resets   : t.resets = s.resets
  readsEoi : t.readsEoi = s.readsEoi
  closed   : t.src.closed = s.src.closed
  queue    : t.src.queue = s.src.queue ∨ streams i = true ∧ ∃ x, s.src.queue = x :: t.src.queue
  encoder  : encodes i = true → s.blk.EncoderFrame t.blk
  decoder  : encodes i = false → s.blk.DecoderFrame t.blk

/-- The frame of an iteration that leaves everything but the block. -/
theorem State.IterationFrame.withBlk {i : Instr} {s : State} {b : Block}
    (he : encodes i = true → s.blk.EncoderFrame b) (hd : encodes i = false → s.blk.DecoderFrame b) :
    s.IterationFrame i (s.withBlk b) :=
  ⟨rfl, rfl, rfl, rfl, rfl, .inl rfl, he, hd⟩

/-- The frame of an iteration of ENCU (R111). -/
theorem iterEncu_frame {s t : State} (h : iterEncu s = .next t) : s.IterationFrame .encu t := by
  unfold iterEncu at h
  split at h <;> obtain ⟨hn, rfl⟩ := emitThen_next h
  all_goals
    exact .withBlk (fun _ => s.blk.emit_encoderFrame _ hn ⟨rfl, rfl, rfl, rfl, rfl, rfl, id⟩ rfl rfl rfl rfl) nofun

/-- The frame of an iteration of ENCS (R131). -/
theorem iterEncs_frame {s t : State} (h : iterEncs s = .next t) : s.IterationFrame .encs t := by
  unfold iterEncs at h
  split at h <;> obtain ⟨hn, rfl⟩ := emitThen_next h
  all_goals
    exact .withBlk (fun _ => s.blk.emit_encoderFrame _ hn ⟨rfl, rfl, rfl, rfl, rfl, rfl, id⟩ rfl rfl rfl rfl) nofun

/-- The frame of an iteration of a streaming decoder (R58, R121, R141). -/
theorem decodeStream_frame {i : Instr} (hi : streams i = true) {cap : Nat} {f e : Block → Block} {s t : State}
    (hf : ∀ c : Block, c.DecoderFrame (f c)) (he : ∀ c : Block, c.DecoderFrame (e c))
    (h : decodeStream cap f e s = .next t) : s.IterationFrame i t := by
  have hne : encodes i ≠ true := by cases i <;> simp_all [streams, encodes]
  obtain ⟨x, rest, hq, e⟩ | ⟨-, -, e⟩ | ⟨-, -, e⟩ := decodeStream_cases cap f e s <;> rw [e] at h
  · obtain rfl := Host.Outcome.next.inj h
    exact ⟨rfl, rfl, rfl, rfl, rfl, .inr ⟨hi, x, hq⟩, (absurd · hne), fun _ => s.blk.consume_decoderFrame cap hf x⟩
  · obtain rfl := Host.Outcome.next.inj h
    exact .withBlk (absurd · hne) fun _ => he _
  · cases h

/-- The frame of every iteration. -/
theorem iterate_frame {i : Instr} {s t : State} (h : iterate i s = .next t) : s.IterationFrame i t := by
  cases i with
  | encu => exact iterEncu_frame h
  | encs => exact iterEncs_frame h
  | decu =>
    obtain rfl := Host.Outcome.next.inj h
    exact .withBlk nofun fun _ => s.blk.decodeInput_decoderFrame _ Block.finishAcc_decoderFrame
  | decs =>
    obtain rfl := Host.Outcome.next.inj h
    exact .withBlk nofun fun _ => s.blk.decodeInput_decoderFrame _ Block.signFinish_decoderFrame
  | readu => exact decodeStream_frame rfl Block.finishAcc_decoderFrame (fun c => c.finish_decoderFrame _ _) h
  | reads => exact decodeStream_frame rfl Block.signFinish_decoderFrame (fun c => c.readsEoi_decoderFrame _) h

/-- Whatever the operation, the engine's frame of the block holds. -/
theorem State.IterationFrame.engine {i : Instr} {s t : State} (h : s.IterationFrame i t) : s.blk.EngineFrame t.blk := by
  cases he : encodes i with
  | true => exact (h.encoder he).toEngineFrame
  | false => exact (h.decoder he).toEngineFrame

/-- Settles O35, from the frame of the iteration the engine step is. -/
theorem engineStepFrame : Obligations.EngineStepFrame := by
  intro s t h
  obtain ⟨i, ho, hi⟩ := engineStep_next h
  have hf := iterate_frame hi
  have hb := hf.engine
  refine ⟨⟨hb.operand, hb.ilen, hb.ibuf, hb.hazard, hf.turns, hf.answers, hf.resets, hf.readsEoi⟩, hb.op, hb.endv,
    hf.closed, ?_, ?_, ?_⟩ <;> simp only [ho, ne_eq, opcode_inj]
  · refine hf.queue.imp_right fun ⟨hs, hq⟩ => ⟨?_, hq⟩
    cases i <;> simp_all [streams]
  · intro hu hs
    have hd := hf.decoder (by cases i <;> simp_all [encodes])
    exact ⟨hd.obuf, hd.v, hd.rem⟩
  · intro hi
    have he := hf.encoder (by obtain rfl | rfl := hi <;> rfl)
    exact ⟨he.acc, he.mask, he.caphit, he.output⟩

/-! ## Flags the host clears only by RESET -/

/-- No host write clears HAZARD or FAULT (R29, R30, R161). -/
theorem Block.hostWrite_sticky {f : Block → Block} (hf : WriteEffect f) (b : Block) :
    (b.status.hazard = true → (b.hostWrite f).status.hazard = true) ∧
    (b.status.fault = true → (b.hostWrite f).status.fault = true) := by
  cases hb : b.status.busy with
  | true => rw [Block.hostWrite_busy hb]; exact ⟨fun _ => rfl, id⟩
  | false =>
    rw [Block.hostWrite_idle hb]
    cases hf with
    | command i => cases i <;> exact ⟨id, id⟩
    | illegal => exact ⟨id, id⟩
    | register r w => cases r <;> exact ⟨id, id⟩

/-- No engine step clears HAZARD or FAULT (R29, R30, R161). -/
theorem engineStep_sticky {s t : State} (h : engineStep s = .next t) :
    (s.blk.status.hazard = true → t.blk.status.hazard = true) ∧
    (s.blk.status.fault = true → t.blk.status.fault = true) := by
  obtain ⟨i, -, hi⟩ := engineStep_next h
  have hb := (iterate_frame hi).engine
  exact ⟨hb.hazard.trans, hb.fault⟩

/-- Settles O33: of the steps, only the engine's and the host's writes reach the block without a RESET. -/
theorem hazardAndFaultAreSticky : Obligations.HazardAndFaultAreSticky := by
  intro s t h hreset
  obtain ⟨-, -, he⟩ | ⟨rest, -, -, he⟩ | ⟨rest, -, -, rfl⟩ | ⟨a, rest, hturn, ha⟩ | ⟨rest, -, rfl⟩ := step_cases h
  · exact engineStep_sticky he
  · exact engineStep_sticky (s := s.withTurns rest) he
  · exact ⟨id, id⟩
  · obtain ⟨_, _, f, -, hf, e⟩ | ⟨_, -, e⟩ | ⟨_, -, e⟩ | ⟨-, e⟩ | ⟨rfl, e⟩ := hostAct_cases a (s.withTurns rest) <;>
      obtain rfl := Host.Outcome.next.inj (e.symm.trans ha)
    · exact Block.hostWrite_sticky hf s.blk
    · exact ⟨id, id⟩
    · exact ⟨id, id⟩
    · exact ⟨id, id⟩
    · simp [hturn] at hreset
  · obtain ⟨hblk, -⟩ := waitPoll_frame (s.withTurns rest)
    rw [hblk]
    exact ⟨id, id⟩

/-! ## Outputs of a busy block -/

/-- In the loop of a decoder OBUF is all 0 (R36). -/
theorem Block.Loop.obuf_zero {b : Block} {i : Instr} (h : b.Loop i) (hi : encodes i = false) :
    b.obuf = Vector.replicate 10 0 := by
  cases i with
  | encu | encs => cases hi
  | decu | readu => exact (h.unsigned (by simp)).obuf_zero
  | decs | reads => exact (h.signed (by simp)).obuf_zero

/-- Settles O37, from the outputs of a busy block and the loop invariant of a decoder. -/
theorem outputsWhileBusyArePartial : Obligations.OutputsWhileBusyArePartial := by
  intro s h hbusy
  have ho := h.outputs hbusy
  refine ⟨ho.result_zero, ho.not_done, ho.err_none, ho.caphit_off, fun i hi => ?_, fun hp hu hs i => ?_⟩
  · rw [Block.readReg, h.bounded.obuf_zero i hi]; rfl
  · obtain ⟨j, hj⟩ := exists_opcode_of_kindField_ne (h.running.op_legal hp)
    have hz := (h.loop hp hj).obuf_zero (by cases j <;> simp_all [encodes])
    rw [Block.readReg, hz, Fin.getElem_fin, Vector.getElem_replicate]; rfl

end Sys2Proof.Machine
end

section
/-! SUPPORT. The statements on the register map, the STATUS word and the reset values (10_state.md R21, R25, R47). -/

namespace Sys2Proof.Machine

/-! ## The register index map -/

/-- The name of an index is well formed (R21). -/
theorem regAt_wf (idx : BitVec 8) : (regAt idx).wf = true := by
  unfold regAt
  split_ifs <;> simp [Reg.wf, reservedIndex]
  omega

/-- The name of an index has that index (R21). -/
theorem index_regAt (idx : BitVec 8) : (regAt idx).index = idx := by
  unfold regAt
  split_ifs <;> apply BitVec.eq_of_toNat_eq <;> simp [Reg.index] <;> omega

/-- A reserved index names itself (R21). -/
theorem regAt_of_reservedIndex {idx : BitVec 8} (h : reservedIndex idx = true) : regAt idx = .reserved idx := by
  simp only [reservedIndex, Bool.or_eq_true, Bool.and_eq_true, decide_eq_true_eq] at h
  rw [regAt, if_neg (by omega), if_neg (by omega), if_neg (by omega), if_neg (by omega), if_neg (by omega),
    dif_neg (by omega), dif_neg (by omega)]

/-- A well-formed name is the name of its index (R21). -/
theorem regAt_index {r : Reg} (h : r.wf = true) : regAt r.index = r := by
  cases r with
  | cmd | operand | result | status | ilen => rfl
  | ibuf i => fin_cases i <;> rfl
  | obuf i => fin_cases i <;> rfl
  | reserved idx => exact regAt_of_reservedIndex h

/-- Settles O3: `regAt` and `Reg.index` are inverse on well-formed names. -/
theorem registerIndexMapRoundTrips : Obligations.RegisterIndexMapRoundTrips := by
  refine ⟨fun idx => ⟨regAt_wf idx, index_regAt idx⟩, fun r => regAt_index, fun idx => ?_⟩
  have hres : regAt idx = .reserved idx ↔ reservedIndex idx = true :=
    ⟨fun h => by simpa [h, Reg.wf] using regAt_wf idx, regAt_of_reservedIndex⟩
  rw [hres]
  simp [reservedIndex]
  omega

/-! ## STATUS -/

/-- Below bit 16, STATUS is its fields one after the other (R25). -/
theorem Status.getLsbD_word (st : Status) {i : Nat} (hi : i < 16) :
    st.word.getLsbD i =
      if i < 1 then st.busy
      else if i < 2 then st.done
      else if i < 3 then st.caphit
      else if i < 4 then st.hazard
      else if i < 5 then st.fault
      else if i < 8 then false
      else if i < 12 then st.err.code.getLsbD (i - 8)
      else st.nbytes.getLsbD (i - 12) := by
  simp only [Status.word, BitVec.getLsbD_setWidth, BitVec.getLsbD_append]
  interval_cases i <;> simp

/-- From bit 16 on, STATUS is 0 (R33). -/
theorem Status.getLsbD_word_of_le (st : Status) {i : Nat} (hi : 16 ≤ i) : st.word.getLsbD i = false := by
  rw [Status.word, BitVec.getLsbD_setWidth, BitVec.getLsbD_of_ge _ _ hi, Bool.and_false]

/-- Bits 7..5 of STATUS are 0 (R25). -/
theorem Status.word_gap (st : Status) : st.word.extractLsb' 5 3 = 0 := by
  apply BitVec.eq_of_getLsbD_eq
  intro i hi
  rw [BitVec.getLsbD_extractLsb', st.getLsbD_word (by omega)]
  interval_cases i <;> rfl

/-- Bits 11..8 of STATUS are the code of ERR (R25, R151). -/
theorem Status.word_err (st : Status) : st.word.extractLsb' 8 4 = st.err.code := by
  apply BitVec.eq_of_getLsbD_eq
  intro i hi
  rw [BitVec.getLsbD_extractLsb', st.getLsbD_word (by omega)]
  interval_cases i <;> rfl

/-- Bits 15..12 of STATUS are NBYTES (R25). -/
theorem Status.word_nbytes (st : Status) : st.word.extractLsb' 12 4 = st.nbytes := by
  apply BitVec.eq_of_getLsbD_eq
  intro i hi
  rw [BitVec.getLsbD_extractLsb', st.getLsbD_word (by omega)]
  interval_cases i <;> rfl

/-- Bits 63..16 of STATUS are 0 (R25, R33). -/
theorem Status.word_high (st : Status) : st.word.extractLsb' 16 48 = 0 := by
  apply BitVec.eq_of_getLsbD_eq
  intro i _
  rw [BitVec.getLsbD_extractLsb', st.getLsbD_word_of_le (by omega)]
  simp

/-- Settles O16, field by field. -/
theorem statusWordLayout : Obligations.StatusWordLayout := by
  intro st
  refine ⟨st.getLsbD_word (by decide), st.getLsbD_word (by decide), st.getLsbD_word (by decide),
    st.getLsbD_word (by decide), st.getLsbD_word (by decide), st.word_gap, ?_, st.word_nbytes, st.word_high⟩
  rw [st.word_err]
  cases st.err <;> rfl

/-! ## Reset -/

/-- Settles O31: the block after power-on is at rest. -/
theorem invHoldsAtReset : Obligations.InvHoldsAtReset := (Block.afterReset_resting 0 0 0 0 0 0).inv

/-- Settles O17: the two reset blocks have the values of R47, whatever their hidden registers hold. -/
theorem resetGivesTheResetValues : Obligations.ResetGivesTheResetValues := by
  have zero16 : ∀ i : Fin 16, (Vector.replicate 16 (0 : U8))[i] = 0 := fun _ => Vector.getElem_replicate _
  have zero10 : ∀ i : Fin 10, (Vector.replicate 10 (0 : U8))[i] = 0 := fun _ => Vector.getElem_replicate _
  refine ⟨⟨rfl, rfl, rfl, rfl, zero16, zero10, rfl⟩, fun s => ⟨s.hostReset, rfl, ?_, rfl, rfl, rfl, rfl⟩⟩
  exact ⟨rfl, rfl, rfl, rfl, zero16, zero10, rfl⟩

end Sys2Proof.Machine
end

section
/-! SUPPORT. The byte source, the turns of a step and the registers between operations (20_memory.md R56–R66), with the
statements on them. -/

namespace Sys2Proof.Machine

/-! ## The byte source -/

/-- PUSH on an open source appends (R56). -/
theorem Source.push_open {src : Source} (h : src.closed = false) (b : U8) :
    src.push b = ⟨src.queue ++ [b], false⟩ := by
  simp [Source.push, h]

/-- PUSH on a closed source has no effect (R56). -/
theorem Source.push_closed {src : Source} (h : src.closed = true) (b : U8) : src.push b = src := by
  simp [Source.push, h]

/-- A source can answer after a PUSH (R57). -/
theorem Source.canAnswer_push (src : Source) (b : U8) : (src.push b).canAnswer = true := by
  rw [Source.canAnswer_iff]
  cases hc : src.closed with
  | true => exact .inr (by rw [Source.push_closed hc, hc])
  | false => exact .inl (by rw [Source.push_open hc]; exact List.concat_ne_nil b _)

/-- A closed source can answer (R57). -/
theorem Source.canAnswer_close (src : Source) : src.close.canAnswer = true :=
  src.close.canAnswer_iff.mpr (.inr rfl)

/-- What a step may do to the byte source (R56, R58): nothing, consume its head byte, PUSH or CLOSE. -/
inductive Source.Step (src : Source) : Source → Prop where
  | same : src.Step src
  | consume {x : U8} {rest : List U8} (hq : src.queue = x :: rest) : src.Step ⟨rest, src.closed⟩
  | push (b : U8) : src.Step (src.push b)
  | close : src.Step src.close

/-- A source with the closed mark kept, and the queue kept or its head byte taken off, is left or read from (R58). -/
theorem Source.Step.of_fields {src src' : Source} (hc : src'.closed = src.closed)
    (hq : src'.queue = src.queue ∨ ∃ x, src.queue = x :: src'.queue) : src.Step src' := by
  obtain ⟨q, c⟩ := src
  obtain ⟨q', c'⟩ := src'
  obtain rfl : c' = c := hc
  obtain hq | ⟨x, hq⟩ := hq
  · obtain rfl : q' = q := hq
    exact .same
  · exact .consume hq

/-- No action on a closed source opens it (R56). -/
theorem Source.Step.closed {src src' : Source} (h : src.Step src') (hc : src.closed = true) : src'.closed = true := by
  cases h with
  | same | consume => exact hc
  | push b => rwa [Source.push_closed hc]
  | close => rfl

/-- No action changes a source that is closed and empty (R59). -/
theorem Source.Step.eq_of_ended {src' : Source} (h : Source.Step ⟨[], true⟩ src') : src' = ⟨[], true⟩ := by
  cases h with
  | same => rfl
  | consume hq => cases hq
  | push b => exact Source.push_closed rfl b
  | close => rfl

/-- An engine step leaves the source or consumes its head byte (R58). -/
theorem engineStep_src {s t : State} (h : engineStep s = .next t) : s.src.Step t.src := by
  obtain ⟨i, -, hi⟩ := engineStep_next h
  have hf := iterate_frame hi
  exact .of_fields hf.closed (hf.queue.imp_right And.right)

/-- A host action leaves the source, or is PUSH or CLOSE (R56, R170). -/
theorem hostAct_src {a : HostAction} {s t : State} (h : hostAct a s = .next t) : s.src.Step t.src := by
  obtain ⟨_, _, _, -, -, e⟩ | ⟨_, -, e⟩ | ⟨b, -, e⟩ | ⟨-, e⟩ | ⟨-, e⟩ := hostAct_cases a s <;>
    obtain rfl := Host.Outcome.next.inj (e.symm.trans h)
  · exact .same
  · exact .same
  · exact .push b
  · exact .close
  · exact .same

/-- Every step that answers leaves the source, consumes its head byte, or is PUSH or CLOSE (R56, R58). -/
theorem step_src {s t : State} (h : step s = .next t) : s.src.Step t.src := by
  obtain ⟨-, -, he⟩ | ⟨rest, -, -, he⟩ | ⟨_, -, -, rfl⟩ | ⟨_, rest, -, ha⟩ | ⟨rest, -, rfl⟩ := step_cases h
  · exact engineStep_src he
  · exact engineStep_src (s := s.withTurns rest) he
  · exact .same
  · exact hostAct_src (s := s.withTurns rest) ha
  · obtain ⟨-, hsrc, -⟩ := waitPoll_frame (s.withTurns rest)
    rw [hsrc]
    exact .same

/-! ## Runs -/

/-- What every step keeps, every run keeps. -/
theorem core_run_keeps {P : State → Prop} (hstep : ∀ s t, P s → step s = .next t → P t) {k : Nat} {s t : State}
    (hs : P s) (h : Sys2Proof.core.run k s = .next t) : P t := by
  induction k generalizing s with
  | zero =>
    obtain rfl := Host.Outcome.next.inj ((core_run_zero s).symm.trans h)
    exact hs
  | succ k ih =>
    rw [core_run_succ] at h
    cases hu : step s with
    | next u => exact ih (hstep s u hs hu) (by rwa [hu] at h)
    | fault | refused => rw [hu] at h; cases h

/-! ## Statements on the source -/

/-- Settles O18: PUSH and CLOSE by their two lemmas, and no step reopens because no action on the source does. -/
theorem pushAppendsAndCloseCloses : Obligations.PushAppendsAndCloseCloses := by
  refine ⟨fun s b => ⟨fun ho => ?_, fun hc => ?_, rfl⟩, fun s t h => (step_src h).closed⟩
  · rw [hostAct, Source.push_open ho]; rfl
  · rw [hostAct, Source.push_closed hc]; rfl

/-- Settles O20: being closed and empty is kept by every step, so by every run. -/
theorem endOfInputPersists : Obligations.EndOfInputPersists := by
  intro k s t hc hq h
  have ended : t.src = ⟨[], true⟩ := by
    refine core_run_keeps (P := fun u => u.src = ⟨[], true⟩) (fun u v hu huv => ?_) ?_ h
    · exact (hu ▸ step_src huv).eq_of_ended
    · rw [← hc, ← hq]
  rw [ended]
  rfl

/-- A READ has a step exactly where `SrcRead()` can answer (R57, R96). -/
theorem engineEnabled_of_streams {s : State} {i : Instr} (hs : streams i = true) (hp : s.blk.phase = .run)
    (ho : s.blk.op = opcode i) : engineEnabled s = s.src.canAnswer := by
  rw [engineEnabled_of_run hp ho, hs, Bool.not_true, Bool.false_or]

/-- Settles O19: the READ's step is enabled by what makes the source able to answer. -/
theorem sourceReadAnswers : Obligations.SourceReadAnswers := by
  refine ⟨fun _ _ _ => rfl, rfl, rfl, fun s hp hop => ?_⟩
  obtain ⟨i, hs, ho⟩ : ∃ i, streams i = true ∧ s.blk.op = opcode i := by
    obtain ho | ho := hop
    · exact ⟨.readu, rfl, ho⟩
    · exact ⟨.reads, rfl, ho⟩
  refine ⟨?_, fun b t h _ => ?_, fun t h => ?_⟩
  · rw [engineEnabled_of_streams hs hp ho, ← Source.read_isSome, Option.isSome_iff_exists]
  · obtain rfl := Host.Outcome.next.inj h
    exact (engineEnabled_of_streams (s := s.withSrc (s.src.push b)) hs hp ho).trans (s.src.canAnswer_push b)
  · obtain rfl := Host.Outcome.next.inj h
    exact (engineEnabled_of_streams (s := s.withSrc s.src.close) hs hp ho).trans s.src.canAnswer_close

/-! ## Registers between operations -/

/-- After completion the engine has no step (R48, R96). -/
theorem State.Inv.engineEnabled_of_done {s : State} (h : s.Inv) (hd : s.blk.status.done = true) :
    engineEnabled s = false := by
  refine engineEnabled_of_not_run fun hp => ?_
  have busy : s.blk.status.busy = true := h.r48.busy_iff.mpr (by simp [hp])
  simp [h.r48.done_not_busy hd] at busy

/-- Only a register write or a RESET changes the block in a host action (R56, R90). -/
theorem hostAct_blk {a : HostAction} {s t : State} (h : hostAct a s = .next t) (hw : ∀ idx w, a ≠ .wr idx w)
    (hr : a ≠ .reset) : t.blk = s.blk := by
  cases a with
  | wr idx w => exact absurd rfl (hw idx w)
  | rd | push | close =>
    obtain rfl := Host.Outcome.next.inj h
    rfl
  | reset => exact absurd rfl hr

/-- Settles O36: with DONE 1 the engine has no step, and no other turn but a host write or RESET reaches the block. -/
theorem completedOutputsStayUntilTheHostActs : Obligations.CompletedOutputsStayUntilTheHostActs := by
  intro s t h hd hstep hw hr
  have idle := h.engineEnabled_of_done hd
  obtain ⟨-, hen, -⟩ | ⟨_, -, hen, -⟩ | ⟨_, -, -, rfl⟩ | ⟨a, rest, hturn, ha⟩ | ⟨rest, -, rfl⟩ := step_cases hstep
  · simp [idle] at hen
  · simp [idle] at hen
  · rfl
  · simp only [hturn, List.head?_cons, ne_eq, Option.some.injEq, Turn.host.injEq] at hw hr
    exact hostAct_blk (s := s.withTurns rest) ha hw hr
  · exact (waitPoll_frame (s.withTurns rest)).1

/-! ## Steps -/

/-- The decoder reads a command from a table word exactly where the CMD word spells it (R76). -/
theorem decodeTableWord_eq_some {nbits w : Nat} {i : Instr} :
    decodeTableWord nbits w = some i ↔ decode (tableWord nbits w) = .ok i := by
  unfold decodeTableWord
  cases decode (tableWord nbits w) <;> simp

/-- Settles O7: the placed turn is the CMD write of the word. -/
theorem placedTableWordRunsNext : Obligations.PlacedTableWordRunsNext := by
  intro s nbits w i h
  have hturn : step (s.withFetchWord nbits w) = takeTurn (commandTurn (tableWord nbits w)) s := step_of_turn rfl
  rw [hturn]
  exact hostWrite_cmd (decodeTableWord_eq_some.mp h) s

/-- The engine's turn is its step where it has one (R96). -/
theorem takeTurn_engine {s : State} (h : engineEnabled s = true) : takeTurn .engine s = engineStep s := if_pos h

/-- The engine's turn passes where it has no step (log 1). -/
theorem takeTurn_engine_disabled {s : State} (h : engineEnabled s = false) : takeTurn .engine s = .next s := by
  simp [takeTurn, h]

/-- Settles O8, turn by turn; the turns are no part of what enables the engine. -/
theorem stepTakesTheNextTurn : Obligations.StepTakesTheNextTurn := by
  refine fun s rest => ⟨fun ht hen => ?_, fun ht hen => ?_, fun ht hen => ?_, fun a ht => step_of_turn ht⟩
  · exact (step_of_no_turn ht).trans (if_pos hen)
  · exact (step_of_turn ht).trans (takeTurn_engine hen)
  · exact (step_of_turn ht).trans (takeTurn_engine_disabled hen)

end Sys2Proof.Machine
end

section
/-! SUPPORT. The statements on command words, encoded bytes, host action codes, the pseudo-instructions and WAIT
(30_encoding.md R70–R80). -/

namespace Sys2Proof.Machine

/-! ## Command words -/

/-- A word spells the command whose opcode its OP field holds (R75, R76). -/
theorem decode_eq_ok_iff {w : U64} {i : Instr} : decode w = .ok i ↔ opField w = opcode i :=
  ⟨eq_opcode_of_decodeOp, fun h => by rw [decode, h, decodeOp_opcode]⟩

/-- The OP field, widened again, is the word without its bits 63..3 (R75). -/
theorem setWidth_opField (w : U64) : (opField w).setWidth 64 = w &&& 7 := by
  apply BitVec.eq_of_toNat_eq
  have hmod : (w &&& 7).toNat = w.toNat % 8 := Nat.and_two_pow_sub_one_eq_mod w.toNat 3
  rw [hmod, opField, BitVec.toNat_setWidth, BitVec.toNat_setWidth]
  omega

/-- A word spells a command where it agrees with the command's own word in bits 2..0 (R75, R76). -/
theorem decode_eq_ok_iff_and_seven {w : U64} {i : Instr} : decode w = .ok i ↔ w &&& 7 = encode i := by
  rw [decode_eq_ok_iff, ← setWidth_opField, encode]
  refine ⟨congrArg _, fun h => ?_⟩
  simpa using congrArg (BitVec.setWidth 3) h

/-- A command is spelled by its own word (R76). -/
theorem decode_encode (i : Instr) : decode (encode i) = .ok i :=
  decode_eq_ok_iff.mpr (by simp [opField, encode])

/-- KIND is 3 exactly where bits 1 and 0 of OP are both 1 (R75). -/
theorem kindField_eq_three_iff : ∀ op : BitVec 3, kindField op = 3 ↔ op.getLsbD 0 = true ∧ op.getLsbD 1 = true := by
  decide

/-- A word spells no command exactly where its KIND is 3 (R76, R77). -/
theorem decode_ne_ok_iff (w : U64) : (∀ i, decode w ≠ .ok i) ↔ kindField (opField w) = 3 := by
  simp only [ne_eq, decode_eq_ok_iff]
  refine ⟨fun h => ?_, fun h i hi => kindField_opcode_ne i (hi ▸ h)⟩
  by_contra hk
  obtain ⟨i, hi⟩ := exists_opcode_of_kindField_ne hk
  exact h i hi

/-- Settles O1: both decoding and its refusal read the OP field only. -/
theorem commandWordsDecodeByBitsTwoToZero : Obligations.CommandWordsDecodeByBitsTwoToZero := by
  refine ⟨decode_encode, fun w => ?_, fun w => ?_⟩
  · have spells (i : Instr) : decode w = .ok i ↔ w &&& 7 = encode i := decode_eq_ok_iff_and_seven
    exact ⟨spells .encu, spells .decu, spells .readu, spells .encs, spells .decs, spells .reads⟩
  · rw [decode_ne_ok_iff, kindField_eq_three_iff]
    simp [opField]

/-- Settles O2: ten closed words, evaluated. -/
theorem commandWordsWrittenOut : Obligations.CommandWordsWrittenOut := by
  unfold Obligations.CommandWordsWrittenOut
  decide

/-! ## Encoded bytes -/

/-- Bits 6..0 of an emitted byte are those of the value (R70, R73). -/
theorem getLsbD_groupByte (v : U64) (more : Bool) {j : Nat} (hj : j < 7) :
    (groupByte v more).getLsbD j = v.getLsbD j := by
  cases more <;> interval_cases j <;> simp [groupByte]

/-- Below the length, a byte of an unsigned encoding is the emitted byte (R112). -/
theorem encUByte_of_lt {x : U64} {k : Nat} (h : k < encULen x) :
    encUByte x k = groupByte (x >>> (7 * k)) (decide (k + 1 < encULen x)) := if_pos h

/-- Below the length, a byte of a signed encoding is the emitted byte (R132). -/
theorem encSByte_of_lt {x : U64} {k : Nat} (h : k < encSLen x) :
    encSByte x k = groupByte (x.sshiftRight (7 * k)) (decide (k + 1 < encSLen x)) := if_pos h

/-- Where the value fits in n + 1 groups, bit 6 of group n is its sign (R74, R131). -/
theorem getLsbD_six_of_fitsSigned {x : U64} {n : Nat} (h : fitsSigned x.toInt (n + 1) = true) :
    (x.sshiftRight (7 * n)).getLsbD 6 = x.getLsbD 63 := by
  obtain ⟨hterm, hbit⟩ := (noMore_iff x n).mpr h
  rw [← hbit, hterm, terminal_getLsbD]
  simp

/-- Settles O45: each byte is an emitted one, and the value fits in the groups of its signed encoding. -/
theorem encodedBytesCarryTheirGroups : Obligations.EncodedBytesCarryTheirGroups := by
  refine fun x k => ⟨fun hk => ?_, fun hk => ?_, ?_⟩
  · rw [encUByte_of_lt hk, contBit_groupByte, decide_eq_true_iff]
    refine ⟨fun j hj => ?_, Iff.rfl⟩
    rw [getLsbD_groupByte _ _ hj, BitVec.getLsbD_ushiftRight]
  · rw [encSByte_of_lt hk, contBit_groupByte, decide_eq_true_iff]
    exact ⟨fun j hj => getLsbD_groupByte _ _ hj, Iff.rfl⟩
  · obtain ⟨n, hn⟩ : ∃ n, encSLen x = n + 1 := Nat.exists_eq_add_one.mpr (encSLen_pos x)
    have fits : fitsSigned x.toInt (n + 1) = true := (encSLen_le (by omega)).mp hn.le
    rw [hn, Nat.add_sub_cancel, encSByte_of_lt (by omega), getLsbD_groupByte _ _ (by decide)]
    exact getLsbD_six_of_fitsSigned fits

/-! ## Host action codes -/

/-- A byte, widened, stays below 256. -/
theorem toNat_setWidth_byte_lt (b : U8) : (b.setWidth 64).toNat < 256 := by
  rw [BitVec.toNat_setWidth]
  omega

/-- The code of an action is well formed (R79). -/
theorem encodeAction_wf (a : HostAction) : (encodeAction a).wf = true := by
  cases a with
  | rd | wr | close | reset => rfl
  | push b => simpa [encodeAction, ActionCode.wf] using toNat_setWidth_byte_lt b

/-- The code of an action decodes to it (R79). -/
theorem decodeAction_encodeAction (a : HostAction) : decodeAction (encodeAction a) = .ok a := by
  cases a with
  | rd | wr | close | reset => rfl
  | push b =>
    have hw : (b.setWidth 64).setWidth 8 = b := by simp
    exact (if_pos (toNat_setWidth_byte_lt b)).trans (congrArg (Except.ok ∘ HostAction.push) hw)

/-- The well-formed codes are those that decode (R79, log 14). -/
theorem actionCode_wf_iff (c : ActionCode) : c.wf = true ↔ ∃ a, decodeAction c = .ok a := by
  obtain ⟨kind, idx, w⟩ := c
  match kind with
  | 0 | 1 | 3 | 4 => exact ⟨fun _ => ⟨_, rfl⟩, fun _ => rfl⟩
  | 2 => by_cases hw : w.toNat < 256 <;> simp [ActionCode.wf, decodeAction, hw]
  | k + 5 => simp [ActionCode.wf, decodeAction]

/-- Settles O4: encoding and decoding, action by action and kind by kind. -/
theorem hostActionCodesRoundTrip : Obligations.HostActionCodesRoundTrip :=
  ⟨fun a => ⟨encodeAction_wf a, decodeAction_encodeAction a⟩, actionCode_wf_iff, fun _ _ _ => ⟨rfl, rfl, rfl, rfl, rfl⟩⟩

/-! ## Pseudo-instructions -/

/-- The IBUF writes of LDIB from byte k on, by index (R80). -/
theorem loadBytes_eq_map (k : Nat) (bytes : List U8) :
    loadBytes k bytes = (List.range bytes.length).map fun j =>
      Turn.host (.wr (BitVec.ofNat 8 (0x10 + (k + j))) ((bytes.getD j 0).setWidth 64)) := by
  induction bytes generalizing k with
  | nil => rfl
  | cons b bs ih =>
    have shift (j : Nat) : k + 1 + j = k + (j + 1) := by omega
    simp only [loadBytes, ih, shift, List.length_cons, List.range_succ_eq_map, List.map_cons, List.map_map]
    rfl

/-- Settles O5: LDIB by `loadBytes_eq_map`, whatever the number of its bytes; the commands by their words. -/
theorem pseudoInstructionsExpand : Obligations.PseudoInstructionsExpand := by
  refine ⟨fun bytes _ => ?_, rfl, rfl, rfl, rfl, rfl, rfl⟩
  simp only [AsmItem.expand, loadBytes_eq_map, Nat.zero_add]
  rfl

/-! ## WAIT -/

/-- A STATUS word ends WAIT exactly where DONE or FAULT is 1 (R25, R80). -/
theorem waitEnds_word (st : Status) : waitEnds st.word = (st.done || st.fault) := by
  rw [waitEnds, st.getLsbD_word (by decide), st.getLsbD_word (by decide)]
  rfl

/-- A poll of WAIT returns STATUS, and puts the engine and WAIT back where neither DONE nor FAULT is 1 (R80, log 3). -/
theorem waitPoll_eq (s : State) :
    waitPoll s = if s.blk.status.done || s.blk.status.fault then s.answer s.blk.status.word
      else (s.answer s.blk.status.word).withTurns (.engine :: .wait :: s.turns) := by
  rw [waitPoll, waitEnds_word]
  rfl

/-- Settles O10: the step of a WAIT turn is one poll. -/
theorem waitPollsUntilDoneOrFault : Obligations.WaitPollsUntilDoneOrFault := by
  intro s rest ht
  have hstep : step s = .next (waitPoll (s.withTurns rest)) := step_of_turn ht
  rw [hstep, waitPoll_eq]
  refine ⟨fun hends => ?_, fun hd hf => ?_⟩
  · rw [if_pos (by simpa using hends)]; rfl
  · rw [if_neg (by simp [hd, hf])]; rfl

end Sys2Proof.Machine
end

section
/-! SUPPORT. The host's accesses to the register port (40_operation_lifecycle.md R90–R94): what a write of a word to an
index does, said once, with the statements on reads, writes and commands. -/

namespace Sys2Proof.Machine

/-! ## The effect of a write -/

/-- What a write of `w` to index `idx` does to an idle block (R91): a command or IllegalStart at CMD, a register write
elsewhere. -/
def Block.written (idx : BitVec 8) (w : U64) : Block → Block :=
  match regAt idx with
  | .cmd =>
    match decode w with
    | .ok i => Block.begun i
    | .error _ => Block.illegalStart
  | r => fun b => b.writeReg r w

/-- A host write is its effect on an idle block, and HAZARD on a busy one (R91, R92). -/
theorem hostAct_wr (idx : BitVec 8) (w : U64) (s : State) :
    hostAct (.wr idx w) s = .next (s.withBlk (s.blk.hostWrite (Block.written idx w))) := by
  simp only [hostAct, hostWrite, command, Block.written]
  cases regAt idx with
  | cmd =>
    cases decode w with
    | ok i => exact exec_eq_hostWrite i s
    | error e => rfl
  | operand | result | status | ilen | ibuf | obuf | reserved => rfl

/-- A host write to an idle block is its effect (R91). -/
theorem hostAct_wr_idle {s : State} (h : s.blk.status.busy = false) (idx : BitVec 8) (w : U64) :
    hostAct (.wr idx w) s = .next (s.withBlk (s.blk.written idx w)) := by
  rw [hostAct_wr, Block.hostWrite_idle h]

/-- A write to an index other than CMD is a register write (R91). -/
theorem Block.written_of_regAt {idx : BitVec 8} {r : Reg} (h : regAt idx = r) (hr : r ≠ .cmd) (w : U64) (b : Block) :
    b.written idx w = b.writeReg r w := by
  cases r with
  | cmd => exact absurd rfl hr
  | operand | result | status | ilen | ibuf | obuf | reserved => simp only [Block.written, h]

/-- A CMD write of a word that spells a command starts it (R91, R93). -/
theorem Block.written_command {w : U64} {i : Instr} (h : decode w = .ok i) : Block.written 0x00 w = Block.begun i := by
  have hr : regAt 0x00 = .cmd := rfl
  simp only [Block.written, hr, h]

/-- A CMD write of a word that spells no command is IllegalStart (R91, R94). -/
theorem Block.written_illegal {w : U64} (h : ∀ i, decode w ≠ .ok i) : Block.written 0x00 w = Block.illegalStart := by
  have hr : regAt 0x00 = .cmd := rfl
  simp only [Block.written, hr]
  cases hd : decode w with
  | ok i => exact absurd hd (h i)
  | error e => rfl

/-- CMD has the index 0 (R21). -/
theorem regAt_eq_cmd_iff {idx : BitVec 8} : regAt idx = .cmd ↔ idx = 0x00 :=
  ⟨fun h => (index_regAt idx).symm.trans (congrArg Reg.index h), fun h => congrArg regAt h⟩

/-- A register write changes at most OPERAND, ILEN and IBUF (R91). -/
theorem Block.writeReg_frame (b : Block) (r : Reg) (w : U64) :
    (b.writeReg r w).status = b.status ∧ (b.writeReg r w).phase = b.phase := by
  cases r <;> exact ⟨rfl, rfl⟩

/-- A write to an idle block is a command or IllegalStart at CMD, and a register write elsewhere (R91). -/
theorem Block.written_cases (idx : BitVec 8) (w : U64) (b : Block) :
    (∃ i, idx = 0x00 ∧ decode w = .ok i ∧ b.written idx w = b.begun i) ∨ b.written idx w = b.illegalStart ∨
      b.written idx w = b.writeReg (regAt idx) w := by
  by_cases hidx : idx = 0x00
  · subst hidx
    cases hd : decode w with
    | ok i => exact .inl ⟨i, rfl, rfl, congrFun (Block.written_command hd) b⟩
    | error e => exact .inr (.inl (congrFun (Block.written_illegal (by simp [hd])) b))
  · exact .inr (.inr (Block.written_of_regAt rfl (mt regAt_eq_cmd_iff.mp hidx) w b))

/-- A command starts in phase RUN (R93). -/
theorem Block.begun_phase (i : Instr) (b : Block) : (b.begun i).phase = .run := by
  cases i <;> rfl

/-- A command keeps HAZARD (R93). -/
theorem Block.begun_hazard (i : Instr) (b : Block) : (b.begun i).status.hazard = b.status.hazard := by
  cases i <;> rfl

/-- No write to an idle block changes HAZARD (R91). -/
theorem Block.written_hazard (idx : BitVec 8) (w : U64) (b : Block) :
    (b.written idx w).status.hazard = b.status.hazard := by
  obtain ⟨i, -, -, e⟩ | e | e := b.written_cases idx w <;> rw [e]
  · exact b.begun_hazard i
  · rfl
  · rw [(b.writeReg_frame _ w).1]

/-! ## Statements on commands -/

/-- Settles O6: the turn is the CMD write of the word. -/
theorem stepRunsTheDecodedCommand : Obligations.StepRunsTheDecodedCommand := by
  intro s w rest i ht hd
  exact (step_of_turn ht).trans (hostWrite_cmd hd _)

/-- A command on an idle block starts (R93). -/
theorem exec_idle {s : State} (h : s.blk.status.busy = false) (i : Instr) :
    exec i s = .next (s.withBlk (s.blk.begun i)) := by
  rw [exec_eq_hostWrite, Block.hostWrite_idle h]

/-- Settles O11: each started block is `Block.begun`, written out. -/
theorem commandsStartOnAnIdleBlock : Obligations.CommandsStartOnAnIdleBlock := by
  intro s h
  have start := exec_idle h
  exact ⟨fun w i hd => ⟨decode_eq_ok_iff.mp hd, hostWrite_cmd hd s⟩, start .encu, start .encs, start .decu,
    start .readu, start .decs, start .reads⟩

/-- Settles O12: w[1:0] = 3 spells no command, and IllegalStart leaves the phase. -/
theorem illegalCommandCompletesAtOnce : Obligations.IllegalCommandCompletesAtOnce := by
  intro s w h h0 h1
  have illegal : ∀ i, decode w ≠ .ok i := by
    rw [decode_ne_ok_iff, kindField_eq_three_iff]
    simp [opField, h0, h1]
  refine ⟨?_, fun hp => engineEnabled_of_not_run (by simp [hp])⟩
  rw [hostAct_wr_idle h, Block.written_illegal illegal]
  rfl

/-! ## Statements on writes and reads -/

/-- Settles O13: every host write and every command is a write that a busy block answers with HAZARD. -/
theorem writeWhileBusySetsHazardOnly : Obligations.WriteWhileBusySetsHazardOnly := by
  refine fun s h => ⟨fun idx w => ?_, fun i => ?_⟩
  · rw [hostAct_wr, Block.hostWrite_busy h]; rfl
  · rw [exec_eq_hostWrite, Block.hostWrite_busy h]; rfl

/-- Outside CMD, OPERAND, ILEN and IBUF a write stores nothing (R91). -/
theorem Block.written_of_ignored {idx : BitVec 8} (h0 : idx.toNat ≠ 0x00) (h1 : idx.toNat ≠ 0x01)
    (h4 : idx.toNat ≠ 0x04) (hi : ¬(0x10 ≤ idx.toNat ∧ idx.toNat ≤ 0x1F)) (w : U64) (b : Block) :
    b.written idx w = b := by
  have index {r : Reg} (hr : regAt idx = r) : idx.toNat = r.index.toNat := by rw [← hr, index_regAt]
  cases hr : regAt idx with
  | cmd => exact absurd (index hr) h0
  | operand => exact absurd (index hr) h1
  | ilen => exact absurd (index hr) h4
  | ibuf i =>
    have := index hr
    simp only [Reg.index, BitVec.toNat_ofNat] at this
    omega
  | result | status | obuf | reserved => exact Block.written_of_regAt hr (by simp) w b

/-- Settles O14: the effect of the write, index by index. -/
theorem idleWritesFollowTheIndexMap : Obligations.IdleWritesFollowTheIndexMap := by
  intro s w h
  have write (idx : BitVec 8) {r : Reg} (hr : regAt idx = r) (hc : r ≠ .cmd) :
      hostAct (.wr idx w) s = .next (s.withBlk (s.blk.writeReg r w)) := by
    rw [hostAct_wr_idle h, Block.written_of_regAt hr hc]
  refine ⟨fun i hd => hostWrite_cmd hd s, fun hd => ?_, write 0x01 rfl nofun, write 0x04 rfl nofun, fun i => ?_,
    fun idx h0 h1 h4 hi => ?_, fun idx t ht => ?_⟩
  · rw [hostAct_wr_idle h, Block.written_illegal hd]; rfl
  · exact write _ (regAt_index (r := .ibuf i) rfl) nofun
  · rw [hostAct_wr_idle h, Block.written_of_ignored h0 h1 h4 hi]; rfl
  · obtain rfl := Host.Outcome.next.inj ((hostAct_wr_idle h idx w).symm.trans ht)
    exact s.blk.written_hazard idx w

/-- A read returns the register its index names (R90). -/
theorem hostAct_rd {idx : BitVec 8} {r : Reg} (h : regAt idx = r) (s : State) :
    hostAct (.rd idx) s = .next (s.answer (s.blk.readReg r)) := by
  subst h; rfl

/-- Settles O15: the register of each index, read. -/
theorem readsReturnTheRegisterAndChangeNothing : Obligations.ReadsReturnTheRegisterAndChangeNothing := by
  refine fun s => ⟨rfl, rfl, rfl, rfl, rfl, fun i => ?_, fun i => ?_, fun idx h => ?_⟩
  · exact hostAct_rd (regAt_index (r := .ibuf i) rfl) s
  · exact hostAct_rd (regAt_index (r := .obuf i) rfl) s
  · exact hostAct_rd (regAt_of_reservedIndex (by simpa [reservedIndex] using h)) s

end Sys2Proof.Machine
end

section
/-! SUPPORT. When the engine has a step, that it answers one, and what a step does where the engine has none
(40_operation_lifecycle.md R95, R96, R99), with the statements on them. -/

namespace Sys2Proof.Machine

/-! ## The engine's step answers -/

/-- A streaming decoder answers where the source can (R57, R96). -/
theorem decodeStream_answers {cap : Nat} {f e : Block → Block} {s : State} (h : s.src.canAnswer = true) :
    ∃ t, decodeStream cap f e s = .next t := by
  obtain ⟨_, _, -, e⟩ | ⟨-, -, e⟩ | ⟨hq, hc, -⟩ := decodeStream_cases cap f e s
  · exact ⟨_, e⟩
  · exact ⟨_, e⟩
  · simp [Source.canAnswer_iff, hq, hc] at h

/-- In its loop an operation answers, where the source can if it streams: an encoder has room in OBUF (R53, R96). -/
theorem Block.Loop.iterate_answers {s : State} {i : Instr} (h : s.blk.Loop i)
    (hs : streams i = true → s.src.canAnswer = true) : ∃ t, iterate i s = .next t := by
  cases i with
  | encu =>
    simp only [iterate, iterEncu, emitThen_of_lt h.nbytes_lt]
    split <;> exact ⟨_, rfl⟩
  | encs =>
    simp only [iterate, iterEncs, emitThen_of_lt h.nbytes_lt]
    split <;> exact ⟨_, rfl⟩
  | decu | decs => exact ⟨_, rfl⟩
  | readu =>
    rw [iterate, iterReadu]
    exact decodeStream_answers (hs rfl)
  | reads =>
    rw [iterate, iterReads]
    exact decodeStream_answers (hs rfl)

/-- In the invariant the engine answers the step it has (R97). -/
theorem State.Inv.engineStep_answers {s : State} (h : s.Inv) (hen : engineEnabled s = true) :
    ∃ t, Machine.engineStep s = .next t := by
  obtain ⟨hp, i, ho, hs⟩ := engineEnabled_run hen
  rw [engineStep_of_op ho]
  exact (h.loop hp ho).iterate_answers hs

/-- In the invariant every turn answers: the engine's step does, or its turn passes (R95, log 1). -/
theorem State.Inv.takeTurn_answers {s : State} (h : s.Inv) (u : Turn) : ∃ t, takeTurn u s = .next t := by
  cases u with
  | engine =>
    cases hen : engineEnabled s with
    | true => rw [takeTurn_engine hen]; exact h.engineStep_answers hen
    | false => exact ⟨s, takeTurn_engine_disabled hen⟩
  | host a =>
    obtain ⟨_, _, _, -, -, e⟩ | ⟨_, -, e⟩ | ⟨_, -, e⟩ | ⟨-, e⟩ | ⟨-, e⟩ := hostAct_cases a s <;> exact ⟨_, e⟩
  | wait => exact ⟨_, rfl⟩

/-- In the invariant a step answers, or no turn is left and the engine has no step and the machine stops (log 4). -/
theorem State.Inv.step_answers_or_stops {s : State} (h : s.Inv) :
    (¬(s.turns = [] ∧ engineEnabled s = false) ∧ ∃ t, step s = .next t) ∨
    ((s.turns = [] ∧ engineEnabled s = false) ∧ step s = .fault (stopReason s)) := by
  cases ht : s.turns with
  | nil =>
    rw [step_of_no_turn ht, engineAlone]
    cases hen : engineEnabled s with
    | true => exact .inl ⟨by simp, h.engineStep_answers hen⟩
    | false => exact .inr ⟨by simp, rfl⟩
  | cons u rest =>
    rw [step_of_turn ht]
    exact .inl ⟨by simp, (h.withTurns rest).takeTurn_answers u⟩

/-- Settles O9: a step that answers neither stops nor refuses. -/
theorem stepStopsOnlyWhereNoAgentHasAStep : Obligations.StepStopsOnlyWhereNoAgentHasAStep := by
  intro s h
  obtain ⟨hn, t, e⟩ | ⟨hn, e⟩ := h.step_answers_or_stops <;> rw [e]
  · exact ⟨⟨nofun, fun hn' => absurd hn' hn⟩, nofun⟩
  · exact ⟨⟨fun _ => hn, fun _ => ⟨_, rfl⟩⟩, nofun⟩

/-! ## Steps without the engine -/

/-- What a step that is not the engine's does (R63): one of the host's actions on the block or on the source, or nothing
to either. -/
inductive State.HostStep (s t : State) : Prop where
  | write (idx : BitVec 8) (w : U64) (turn : s.turns.head? = some (.host (.wr idx w)))
      (blk : t.blk = s.blk.hostWrite (Block.written idx w)) (src : t.src = s.src)
  | push (b : U8) (turn : s.turns.head? = some (.host (.push b))) (blk : t.blk = s.blk) (src : t.src = s.src.push b)
  | close (turn : s.turns.head? = some (.host .close)) (blk : t.blk = s.blk) (src : t.src = s.src.close)
  | reset (turn : s.turns.head? = some (.host .reset)) (blk : t.blk = Block.hostReset s.resets) (src : t.src = s.src)
  | none (turn : ∀ a, s.turns.head? = some (.host a) → ∃ idx, a = .rd idx) (blk : t.blk = s.blk) (src : t.src = s.src)

/-- A host action, on a state whose next turn it was, is a step of the host's (R95). -/
theorem hostStep_of_hostAct {s t : State} {a : HostAction} {rest : List Turn} (ht : s.turns = .host a :: rest)
    (h : hostAct a (s.withTurns rest) = .next t) : s.HostStep t := by
  have head : s.turns.head? = some (.host a) := by rw [ht]; rfl
  cases a with
  | wr idx w =>
    obtain rfl := Host.Outcome.next.inj ((hostAct_wr idx w _).symm.trans h)
    exact .write idx w head rfl rfl
  | rd idx =>
    obtain rfl := Host.Outcome.next.inj h
    exact .none (by simp [head]) rfl rfl
  | push b =>
    obtain rfl := Host.Outcome.next.inj h
    exact .push b head rfl rfl
  | close =>
    obtain rfl := Host.Outcome.next.inj h
    exact .close head rfl rfl
  | reset =>
    obtain rfl := Host.Outcome.next.inj h
    exact .reset head rfl rfl

/-- A step that answers is the engine's or the host's (R63). -/
theorem engineStep_or_hostStep {s t : State} (h : step s = .next t) :
    (engineEnabled s = true ∧ ∃ ts, engineStep (s.withTurns ts) = .next t) ∨ s.HostStep t := by
  obtain ⟨-, hen, he⟩ | ⟨rest, -, hen, he⟩ | ⟨rest, ht, -, rfl⟩ | ⟨a, rest, ht, ha⟩ | ⟨rest, ht, rfl⟩ := step_cases h
  · exact .inl ⟨hen, s.turns, he⟩
  · exact .inl ⟨hen, rest, he⟩
  · exact .inr (.none (by simp [ht]) rfl rfl)
  · exact .inr (hostStep_of_hostAct ht ha)
  · obtain ⟨hblk, hsrc, -⟩ := waitPoll_frame (s.withTurns rest)
    exact .inr (.none (by simp [ht]) hblk hsrc)

/-- Where the engine has no step, a step is the host's (R96). -/
theorem hostStep_of_disabled {s t : State} (hen : engineEnabled s = false) (h : step s = .next t) : s.HostStep t :=
  (engineStep_or_hostStep h).resolve_left (by simp [hen])

/-- Whether the engine has a step depends on the phase, on op and on the source only (R96). -/
theorem engineEnabled_congr {s t : State} (hp : t.blk.phase = s.blk.phase) (ho : t.blk.op = s.blk.op)
    (hs : t.src = s.src) : engineEnabled t = engineEnabled s := by
  simp only [engineEnabled, hp, ho, hs]

/-- Outside IDLE a block of the invariant is busy (R48). -/
theorem State.Inv.busy {s : State} (h : s.Inv) (hp : s.blk.phase ≠ .idle) : s.blk.status.busy = true :=
  h.r48.busy_iff.mpr hp

/-- The engine has a step exactly where it runs an operation whose byte, if it streams, can be read (R96). -/
theorem engineEnabled_iff (s : State) :
    engineEnabled s = true ↔
      s.blk.phase = .run ∧ ∃ i, s.blk.op = opcode i ∧ (streams i = true → s.src.canAnswer = true) := by
  refine ⟨engineEnabled_run, fun ⟨hp, i, ho, hs⟩ => ?_⟩
  rw [engineEnabled_of_run hp ho]
  cases hi : streams i with
  | true => exact hs hi
  | false => rfl

/-- Settles O21: the commands one by one; of the host's actions on a running block PUSH and CLOSE change the source,
RESET the phase, and a write HAZARD only. -/
theorem engineHasAStepExactlyWhen : Obligations.EngineHasAStepExactlyWhen := by
  refine ⟨fun s => ?_, fun s t h hp hen hstep => ?_⟩
  · rw [engineEnabled_iff, ← Source.canAnswer_iff]
    refine and_congr_right fun _ => ⟨fun ⟨i, ho, hs⟩ => ?_, ?_⟩
    · cases i with
      | encu | decu | encs | decs => simp [ho]
      | readu | reads => simp [ho, hs rfl]
    · rintro (ho | ho | ho | ho | ⟨ho | ho, hs⟩)
      exacts [⟨_, ho, nofun⟩, ⟨_, ho, nofun⟩, ⟨_, ho, nofun⟩, ⟨_, ho, nofun⟩, ⟨_, ho, fun _ => hs⟩,
        ⟨_, ho, fun _ => hs⟩]
  · have still (hphase : t.blk.phase = s.blk.phase) (hop : t.blk.op = s.blk.op) (hsrc : t.src = s.src) :
        ¬engineEnabled t = true := by
      simp [engineEnabled_congr hphase hop hsrc, hen]
    cases hostStep_of_disabled hen hstep with
    | write idx w turn blk src =>
      rw [Block.hostWrite_busy (h.busy (by simp [hp]))] at blk
      have hphase : t.blk.phase = s.blk.phase := by rw [blk]; rfl
      have hop : t.blk.op = s.blk.op := by rw [blk]; rfl
      exact ⟨fun hen' => absurd hen' (still hphase hop src), by simp [hphase, hp, turn]⟩
    | push b turn blk src => exact ⟨fun _ => .inl ⟨b, turn⟩, by simp [blk, hp, turn]⟩
    | close turn blk src => exact ⟨fun _ => .inr turn, by simp [blk, hp, turn]⟩
    | reset turn blk src =>
      have hphase : t.blk.phase ≠ .run := by simp [blk]
      exact ⟨by simp [engineEnabled_of_not_run hphase], by simp [hphase, turn]⟩
    | none turn blk src =>
      have hreset : s.turns.head? ≠ some (.host .reset) := fun ht => by simpa using turn _ ht
      exact ⟨fun hen' => absurd hen' (still (by rw [blk]) (by rw [blk]) src), by simp [blk, hp, hreset]⟩

/-! ## Completion -/

/-- Settles O30: from rest only the CMD write of a command leaves IDLE, and in IDLE the engine has no step. -/
theorem finishCompletesTheOperation : Obligations.FinishCompletesTheOperation := by
  refine ⟨fun _ _ _ => rfl, fun s t h hp hstep => ?_⟩
  have rests (ht : t.blk.phase = .idle) : t.blk.phase = .idle ∧ engineEnabled t = false :=
    ⟨ht, engineEnabled_of_not_run (by simp [ht])⟩
  have hen : engineEnabled s = false := engineEnabled_of_not_run (by simp [hp])
  have hbusy : s.blk.status.busy = false := by simpa [hp] using h.r48.busy_iff
  cases hostStep_of_disabled hen hstep with
  | write idx w turn blk src =>
    rw [Block.hostWrite_idle hbusy] at blk
    obtain ⟨i, rfl, hd, e⟩ | e | e := s.blk.written_cases idx w
    · exact .inr ⟨w, i, turn, hd, by rw [blk, e, Block.begun_phase]⟩
    · exact .inl (rests (by rw [blk, e]; exact hp))
    · exact .inl (rests (by rw [blk, e, (s.blk.writeReg_frame _ w).2, hp]))
  | push b turn blk src => exact .inl (rests (by rw [blk, hp]))
  | close turn blk src => exact .inl (rests (by rw [blk, hp]))
  | reset turn blk src => exact .inl (rests (by rw [blk]; rfl))
  | none turn blk src => exact .inl (rests (by rw [blk, hp]))

end Sys2Proof.Machine
end

section
/-! SUPPORT. What one iteration does to the phase and to NBYTES (40_operation_lifecycle.md R97–R100), with the
statements on GroupAccumulate, on FAULTED and on the end of every operation. -/

namespace Sys2Proof.Machine

/-! ## GroupAccumulate -/

/-- A value below bit m shares no bit with one shifted to bit m (R72). -/
theorem and_shiftLeft_eq_zero {a : U64} {m : Nat} (ha : a.toNat < 2 ^ m) (x : U64) : a &&& (x <<< m) = 0 := by
  apply BitVec.eq_of_getLsbD_eq
  intro i _
  rw [BitVec.getLsbD_and, BitVec.getLsbD_shiftLeft]
  by_cases h : i < m
  · simp [h]
  · simp [getLsbD_of_lt ha (by omega : m ≤ i)]

/-- Settles O24: below bit 7n the accumulator shares no bit with group n, so the sum is the OR and does not carry. -/
theorem groupAccumulateStep : Obligations.GroupAccumulateStep := by
  refine fun b x => ⟨rfl, fun hn ha => ⟨?_, ?_⟩⟩
  · exact BitVec.add_eq_or_of_and_eq_zero _ _ (and_shiftLeft_eq_zero ha _)
  · obtain ⟨sum, bound⟩ := toNat_accum hn ha x
    exact sum ▸ bound

/-! ## One iteration -/

/-- A block after a loop body: at rest, or in the same phase with one more byte counted. -/
def Block.EndsOrCounts (b c : Block) : Prop :=
  c.phase = .idle ∨ (c.phase = b.phase ∧ c.status.nbytes = b.status.nbytes + 1)

/-- An unsigned decoder completes at rest (R115). -/
theorem Block.finishAcc_phase_idle (b : Block) : b.finishAcc.phase = .idle := rfl

/-- A signed decoder completes at rest (R136). -/
theorem Block.signFinish_phase_idle (b : Block) : b.signFinish.phase = .idle := 
  b.signFinish_of (P := fun c => c.phase = .idle) rfl rfl

/-- The loop body of a decoder counts its byte where it does not complete (R158). -/
theorem Block.consume_endsOrCounts {f : Block → Block} (hf : ∀ b, (f b).phase = .idle) (b : Block) (cap : Nat)
    (x : U8) : b.EndsOrCounts (b.consume cap f x) :=
  b.consume_of cap f x (.inr ⟨rfl, rfl⟩) (.inl (hf _)) (.inl (hf _))

/-- An iteration of an in-memory decoder completes or counts a byte (R115, R135). -/
theorem Block.decodeInput_endsOrCounts {f : Block → Block} (hf : ∀ b, (f b).phase = .idle) (b : Block) (cap : Nat) :
    b.EndsOrCounts (b.decodeInput cap f) := by
  obtain ⟨-, e⟩ | ⟨-, e⟩ := b.decodeInput_cases cap f <;> rw [e]
  · exact .inl rfl
  · exact Block.consume_endsOrCounts hf b cap _

/-- An iteration of ENCU completes or counts a byte (R111). -/
theorem iterEncu_endsOrCounts {s t : State} (h : iterEncu s = .next t) : s.blk.EndsOrCounts t.blk := by
  unfold iterEncu at h
  split at h <;> obtain ⟨_, rfl⟩ := emitThen_next h
  · exact .inr ⟨rfl, rfl⟩
  · exact .inl rfl

/-- An iteration of ENCS completes or counts a byte (R131). -/
theorem iterEncs_endsOrCounts {s t : State} (h : iterEncs s = .next t) : s.blk.EndsOrCounts t.blk := by
  unfold iterEncs at h
  split at h <;> obtain ⟨_, rfl⟩ := emitThen_next h
  · exact .inr ⟨rfl, rfl⟩
  · exact .inl rfl

/-- An iteration of a streaming decoder completes or counts a byte, or is at the end of a closed source (R121, R141). -/
theorem decodeStream_endsOrCounts {cap : Nat} {f e : Block → Block} (hf : ∀ b, (f b).phase = .idle) {s t : State}
    (h : decodeStream cap f e s = .next t) :
    s.blk.EndsOrCounts t.blk ∨ (s.src = ⟨[], true⟩ ∧ t.blk = e s.blk) := by
  obtain ⟨x, _, -, e⟩ | ⟨hq, hc, e⟩ | ⟨-, -, e⟩ := decodeStream_cases cap f e s <;> rw [e] at h
  · obtain rfl := Host.Outcome.next.inj h
    exact .inl (Block.consume_endsOrCounts hf s.blk cap x)
  · obtain rfl := Host.Outcome.next.inj h
    exact .inr ⟨by rw [← hq, ← hc], rfl⟩
  · cases h

/-- The one iteration that enters FAULTED: READS at end-of-input under `P_READS_EOI = fault` (R100, R146). -/
structure State.Faults (s t : State) : Prop where
  op       : s.blk.op = opcode .reads
  readsEoi : s.readsEoi = .fault
  ended    : s.src = ⟨[], true⟩
  blk      : t.blk = s.blk.faultStop

/-- An engine step completes, counts a byte, or enters FAULTED (R97–R100). -/
theorem engineStep_endsOrCounts {s t : State} (h : engineStep s = .next t) : s.blk.EndsOrCounts t.blk ∨ s.Faults t := by
  obtain ⟨i, ho, hi⟩ := engineStep_next h
  cases i with
  | encu => exact .inl (iterEncu_endsOrCounts hi)
  | encs => exact .inl (iterEncs_endsOrCounts hi)
  | decu =>
    obtain rfl := Host.Outcome.next.inj hi
    exact .inl (Block.decodeInput_endsOrCounts Block.finishAcc_phase_idle _ _)
  | decs =>
    obtain rfl := Host.Outcome.next.inj hi
    exact .inl (Block.decodeInput_endsOrCounts Block.signFinish_phase_idle _ _)
  | readu =>
    rw [iterate, iterReadu] at hi
    obtain hb | ⟨-, hb⟩ := decodeStream_endsOrCounts Block.finishAcc_phase_idle hi
    · exact .inl hb
    · exact .inl (.inl (by rw [hb]; rfl))
  | reads =>
    rw [iterate, iterReads] at hi
    obtain hb | ⟨hsrc, hb⟩ := decodeStream_endsOrCounts Block.signFinish_phase_idle hi
    · exact .inl hb
    · cases hr : s.readsEoi with
      | error => exact .inl (.inl (by rw [hb, hr]; rfl))
      | fault => exact .inr ⟨ho, hr, hsrc, by rw [hb, hr]; rfl⟩

/-! ## FAULTED -/

/-- A host write never enters FAULTED (R91, R92). -/
theorem Block.hostWrite_written_phase_ne_faulted {b : Block} (hb : b.phase ≠ .faulted) (idx : BitVec 8) (w : U64) :
    (b.hostWrite (Block.written idx w)).phase ≠ .faulted := by
  cases hbusy : b.status.busy with
  | true => rw [Block.hostWrite_busy hbusy]; exact hb
  | false =>
    rw [Block.hostWrite_idle hbusy]
    obtain ⟨i, -, -, e⟩ | e | e := b.written_cases idx w <;> rw [e]
    · simp [Block.begun_phase]
    · exact hb
    · rwa [(b.writeReg_frame _ w).2]

/-- A step without the engine does not enter FAULTED (R100). -/
theorem State.HostStep.phase_ne_faulted {s t : State} (h : s.HostStep t) (hs : s.blk.phase ≠ .faulted) :
    t.blk.phase ≠ .faulted := by
  cases h with
  | write idx w turn blk src => rw [blk]; exact Block.hostWrite_written_phase_ne_faulted hs idx w
  | reset turn blk src => simp [blk]
  | push b turn blk src => rwa [blk]
  | close turn blk src => rwa [blk]
  | none turn blk src => rwa [blk]

/-- Settles O34: into FAULTED only by the engine step that faults, and there a block is busy, so that a write sets
HAZARD. -/
theorem faultedIsEnteredByReadsAndLeftByReset : Obligations.FaultedIsEnteredByReadsAndLeftByReset := by
  intro s t h hstep
  refine ⟨fun hs ht => ?_, fun hs => ?_⟩
  · obtain ⟨hen, ts, he⟩ | hh := engineStep_or_hostStep hstep
    · obtain ⟨hrun, -⟩ := engineEnabled_run hen
      obtain (hidle | ⟨hsame, -⟩) | ⟨hop, hreads, hsrc, hblk⟩ := engineStep_endsOrCounts he
      · simp [ht] at hidle
      · exact absurd (hsame.symm.trans ht) hs
      · obtain ⟨busy, done, err, -, result⟩ := h.outputs (h.busy (by simp [hrun]))
        rw [hblk]
        exact ⟨hop, hreads, hsrc, rfl, busy, done, result, err⟩
    · exact absurd ht (hh.phase_ne_faulted hs)
  · have hen : engineEnabled s = false := engineEnabled_of_not_run (by simp [hs])
    have hbusy : s.blk.status.busy = true := h.busy (by simp [hs])
    have kept : s.blk = { s.blk with status := { s.blk.status with hazard := s.blk.status.hazard } } := rfl
    refine ⟨hen, ?_⟩
    cases hostStep_of_disabled hen hstep with
    | write idx w turn blk src =>
      rw [Block.hostWrite_busy hbusy] at blk
      exact ⟨fun _ => ⟨true, blk⟩, fun _ _ _ => by rw [blk]; rfl, by simp [turn]⟩
    | push b turn blk src => exact ⟨fun _ => ⟨_, blk.trans kept⟩, by simp [turn], by simp [turn]⟩
    | close turn blk src => exact ⟨fun _ => ⟨_, blk.trans kept⟩, by simp [turn], by simp [turn]⟩
    | reset turn blk src => exact ⟨absurd turn, by simp [turn], fun _ => ⟨by rw [blk]; rfl, src⟩⟩
    | none turn blk src =>
      have nothing {a : HostAction} (ha : ∀ idx, a ≠ .rd idx) : s.turns.head? ≠ some (.host a) := fun ht =>
        let ⟨idx, e⟩ := turn a ht
        ha idx e
      exact ⟨fun _ => ⟨_, blk.trans kept⟩, fun _ _ ht => absurd ht (nothing nofun), fun ht => absurd ht (nothing nofun)⟩

/-! ## Termination -/

/-- A running operation has emitted or consumed fewer bytes than it can (R48, R178). -/
theorem Block.Looping.nbytes_lt {b : Block} {i : Instr} (h : b.Looping i) :
    b.status.nbytes.toNat < maxBytes b.op := by
  have hl := h.loop
  rw [h.op_eq]
  cases i with
  | encu | encs => exact hl.nbytes_lt
  | decu | readu => exact (hl.unsigned (by simp)).nbytes_lt
  | decs | reads => exact (hl.signed (by simp)).nbytes_lt

/-- In the invariant a running operation has a byte left to emit or consume. -/
theorem State.Inv.nbytes_lt {s : State} (h : s.Inv) (hp : s.blk.phase = .run) :
    s.blk.status.nbytes.toNat < maxBytes s.blk.op := by
  obtain hr | ⟨i, hl⟩ | ⟨hh, -⟩ := s.inv_iff.mp h
  · simp [hr.phase] at hp
  · exact hl.nbytes_lt
  · simp [hh.phase] at hp

/-- No operation has more than ten bytes (R53). -/
theorem maxBytes_le_ten (op : BitVec 3) : maxBytes op ≤ 10 := ((le_maxBytes_iff op _).mp le_rfl).1

/-- The engine can go on to the end of the running operation: it does not stream, or the source is closed (R103). -/
def State.Unheld (s : State) : Prop := ∃ i, s.blk.op = opcode i ∧ (streams i = true → s.src.closed = true)

/-- A running operation that is not held has a step (R96). -/
theorem State.Unheld.engineEnabled {s : State} (h : s.Unheld) (hp : s.blk.phase = .run) : engineEnabled s = true := by
  obtain ⟨i, ho, hs⟩ := h
  exact (engineEnabled_iff s).mpr ⟨hp, i, ho, fun hi => s.src.canAnswer_iff.mpr (.inr (hs hi))⟩

/-- An engine step holds no operation that was not held: it keeps op and never opens the source (R58). -/
theorem State.Unheld.engineStep {s t : State} (h : s.Unheld) (hst : engineStep s = .next t) : t.Unheld := by
  obtain ⟨-, hop, -, hclosed, -⟩ := engineStepFrame s t hst
  rwa [State.Unheld, hop, hclosed]

/-- With at most `d` bytes left, a running operation that is not held ends within the bytes it can have, by induction
on `d`: each step counts a byte or ends it (R103, R178). -/
theorem State.Inv.ends {s : State} (h : s.Inv) (hp : s.blk.phase = .run) (hu : s.Unheld) (d : Nat)
    (hd : maxBytes s.blk.op ≤ s.blk.status.nbytes.toNat + d) :
    ∃ k t, engineSteps k s = some t ∧ t.blk.phase ≠ .run ∧ s.blk.status.nbytes.toNat + k ≤ maxBytes s.blk.op := by
  have hlt := h.nbytes_lt hp
  induction d generalizing s with
  | zero => omega
  | succ d ih =>
    have hen := hu.engineEnabled hp
    obtain ⟨t, ht⟩ := h.engineStep_answers hen
    by_cases hpt : t.blk.phase = .run
    · have hcount : t.blk.status.nbytes.toNat = s.blk.status.nbytes.toNat + 1 := by
        obtain (hidle | ⟨-, hn⟩) | hf := engineStep_endsOrCounts ht
        · simp [hidle] at hpt
        · rw [hn]
          exact toNat_add_one (by have := maxBytes_le_ten s.blk.op; omega)
        · rw [hf.blk] at hpt; cases hpt
      have hop : t.blk.op = s.blk.op := (engineStepFrame s t ht).2.1
      have hinv := h.engineStep hp ht
      obtain ⟨k, u, hk, hpu, hle⟩ := ih hinv hpt (hu.engineStep ht) (by rw [hop]; omega) (hinv.nbytes_lt hpt)
      rw [hop] at hle
      exact ⟨k + 1, u, (engineSteps_succ hen ht k).trans hk, hpu, by omega⟩
    · exact ⟨1, t, engineSteps_succ hen ht 0, hpt, hlt⟩

/-- Settles O40: the bound of the statement is `maxBytes`. -/
theorem everyOperationEnds : Obligations.EveryOperationEnds :=
  fun s h hp hu => h.ends hp hu (maxBytes s.blk.op) (Nat.le_add_left _ _)

end Sys2Proof.Machine
end

section
/-! SUPPORT. Changes of a state that the engine's steps do not notice (40_operation_lifecycle.md R92, R102): HAZARD and
what the host read or will do, and bytes at the end of an open source. -/

namespace Sys2Proof.Machine

/-! ## Runs of the engine -/

/-- Engine steps that lead somewhere begin with one and go on with the rest (R96). -/
theorem engineSteps_succ_some {k : Nat} {s u : State} (h : engineSteps (k + 1) s = some u) :
    engineEnabled s = true ∧ ∃ t, engineStep s = .next t ∧ engineSteps k t = some u := by
  rw [engineSteps] at h
  split at h
  · cases hst : engineStep s with
    | next t => exact ⟨‹_›, t, rfl, by rwa [hst] at h⟩
    | fault | refused => rw [hst] at h; cases h
  · cases h

/-- What every engine step commutes with, every run of the engine does. -/
theorem engineSteps_map {P : State → Prop} {f : State → State}
    (hen : ∀ s, P s → engineEnabled s = true → engineEnabled (f s) = true)
    (hst : ∀ s t, P s → engineStep s = .next t → P t ∧ engineStep (f s) = .next (f t)) {k : Nat} {s t : State}
    (hs : P s) (h : engineSteps k s = some t) : engineSteps k (f s) = some (f t) := by
  induction k generalizing s with
  | zero =>
    obtain rfl : s = t := Option.some.inj h
    rfl
  | succ k ih =>
    obtain ⟨hens, u, hsu, hk⟩ := engineSteps_succ_some h
    obtain ⟨hu, hfu⟩ := hst s u hs hsu
    rw [engineSteps_succ (hen s hs hens) hfu]
    exact ih hu hk

/-! ## HAZARD, the turns and the returned words -/

/-- A procedure of the block that does not read HAZARD and leaves it. -/
def IgnoresHazard (f : Block → Block) : Prop := ∀ b : Block, f b.setHazard = (f b).setHazard

theorem finish_ignoresHazard (e : ErrCode) (w : U64) : IgnoresHazard fun b => b.finish e w := fun _ => rfl

theorem finishAcc_ignoresHazard : IgnoresHazard Block.finishAcc := fun _ => rfl

theorem signFinish_ignoresHazard : IgnoresHazard Block.signFinish := by
  intro b
  obtain ⟨hb, e⟩ | ⟨hb, e⟩ := b.signFinish_cases <;> rw [e]
  · exact if_pos hb
  · exact if_neg (by simp [hb])

theorem readsEoi_ignoresHazard (p : ReadsEoi) : IgnoresHazard (Block.readsEoi p) := by
  cases p <;> exact fun _ => rfl

/-- The loop body of a decoder ignores HAZARD where its completion does (R158). -/
theorem consume_ignoresHazard {f : Block → Block} (hf : IgnoresHazard f) (cap : Nat) (x : U8) :
    IgnoresHazard fun b => b.consume cap f x := by
  intro b
  have hacc : b.setHazard.accumulate x = (b.accumulate x).setHazard := rfl
  have hcap : (b.accumulate x).setHazard.capHit = (b.accumulate x).capHit.setHazard := rfl
  have hn : (b.accumulate x).setHazard.status.nbytes = (b.accumulate x).status.nbytes := rfl
  simp only [Block.consume, hacc, hcap, hn, hf _, apply_ite Block.setHazard]

theorem decodeInput_ignoresHazard {f : Block → Block} (hf : IgnoresHazard f) (cap : Nat) :
    IgnoresHazard fun b => b.decodeInput cap f := by
  intro b
  have hin : b.setHazard.inputByte = b.inputByte := rfl
  simp only [Block.decodeInput, hin]
  cases b.inputByte with
  | none => rfl
  | some x => exact consume_ignoresHazard hf cap x b

/-- A streaming decoder consumes the head byte (R57). -/
theorem decodeStream_of_cons {s : State} {x : U8} {rest : List U8} (h : s.src.queue = x :: rest) (cap : Nat)
    (f e : Block → Block) :
    decodeStream cap f e s = .next ((s.withBlk (s.blk.consume cap f x)).withSrc ⟨rest, s.src.closed⟩) := by
  simp only [decodeStream, Source.read, h]

/-- A streaming decoder at the end of a closed source (R57). -/
theorem decodeStream_of_ended {s : State} (hq : s.src.queue = []) (hc : s.src.closed = true) (cap : Nat)
    (f e : Block → Block) : decodeStream cap f e s = .next (s.withBlk (e s.blk)) := by
  simp only [decodeStream, Source.read, hq, hc, if_true]
  rfl

/-- An iteration of ENCU is one emission, with the advance or the completion after it (R111). -/
theorem iterEncu_eq_emitThen (s : State) :
    iterEncu s = emitThen (groupByte s.blk.v (s.blk.rem ≠ 0))
      (if s.blk.rem ≠ 0 then Block.advanceEncu else fun b => b.finish .none 0) s := by
  by_cases h : s.blk.rem ≠ 0
  · rw [iterEncu, if_pos h, if_pos h, decide_eq_true h]
  · rw [iterEncu, if_neg h, if_neg h, decide_eq_false h]

/-- An iteration of ENCS is one emission, with the advance and perhaps the completion after it (R131). -/
theorem iterEncs_eq_emitThen (s : State) :
    iterEncs s = emitThen (groupByte s.blk.v s.blk.moreSigned)
      (if s.blk.moreSigned then Block.advanceEncs else fun b => b.advanceEncs.finish .none 0) s := by
  cases h : s.blk.moreSigned <;> simp [iterEncs, h]

/-- The state with other turns to come, other returned words and HAZARD set. -/
def State.veiled (ts : List Turn) (ws : List U64) (s : State) : State :=
  { s with turns := ts, answers := ws, blk := s.blk.setHazard }

theorem emitThen_veiled {ts : List Turn} {ws : List U64} {x : U8} {f : Block → Block} (hf : IgnoresHazard f)
    {s t : State} (h : emitThen x f s = .next t) : emitThen x f (s.veiled ts ws) = .next (t.veiled ts ws) := by
  obtain ⟨hn, rfl⟩ := emitThen_next h
  have hemit : (s.veiled ts ws).blk.emit x hn = (s.blk.emit x hn).setHazard := rfl
  rw [emitThen_of_lt (s := s.veiled ts ws) hn, hemit, hf]
  rfl

theorem decodeStream_veiled {ts : List Turn} {ws : List U64} {cap : Nat} {f e : Block → Block} (hf : IgnoresHazard f)
    (he : IgnoresHazard e) {s t : State} (h : decodeStream cap f e s = .next t) :
    decodeStream cap f e (s.veiled ts ws) = .next (t.veiled ts ws) := by
  obtain ⟨x, rest, hq, e'⟩ | ⟨hq, hc, e'⟩ | ⟨-, -, e'⟩ := decodeStream_cases cap f e s <;> rw [e'] at h
  · obtain rfl := Host.Outcome.next.inj h
    have hb : (s.veiled ts ws).blk.consume cap f x = (s.blk.consume cap f x).setHazard :=
      consume_ignoresHazard hf cap x s.blk
    rw [decodeStream_of_cons (s := s.veiled ts ws) hq, hb]
    rfl
  · obtain rfl := Host.Outcome.next.inj h
    have hb : e (s.veiled ts ws).blk = (e s.blk).setHazard := he s.blk
    rw [decodeStream_of_ended (s := s.veiled ts ws) hq hc, hb]
    rfl
  · cases h

/-- No iteration notices HAZARD, the turns or the returned words (R92, R102). -/
theorem iterate_veiled {ts : List Turn} {ws : List U64} {i : Instr} {s t : State} (h : iterate i s = .next t) :
    iterate i (s.veiled ts ws) = .next (t.veiled ts ws) := by
  cases i with
  | encu =>
    rw [iterate, iterEncu_eq_emitThen] at h ⊢
    exact emitThen_veiled (by split <;> exact fun _ => rfl) h
  | encs =>
    rw [iterate, iterEncs_eq_emitThen] at h ⊢
    exact emitThen_veiled (by split <;> exact fun _ => rfl) h
  | decu =>
    obtain rfl := Host.Outcome.next.inj h
    have hb := decodeInput_ignoresHazard finishAcc_ignoresHazard Config.capU s.blk
    exact congrArg (Host.Outcome.next ∘ (s.veiled ts ws).withBlk) hb
  | decs =>
    obtain rfl := Host.Outcome.next.inj h
    have hb := decodeInput_ignoresHazard signFinish_ignoresHazard Config.capS s.blk
    exact congrArg (Host.Outcome.next ∘ (s.veiled ts ws).withBlk) hb
  | readu => exact decodeStream_veiled finishAcc_ignoresHazard (finish_ignoresHazard _ _) h
  | reads => exact decodeStream_veiled signFinish_ignoresHazard (readsEoi_ignoresHazard _) h

/-- Settles O38: an engine step is an iteration, and none notices the veil. -/
theorem hostReadsAndIgnoredWritesDoNotReachTheEngine : Obligations.HostReadsAndIgnoredWritesDoNotReachTheEngine := by
  intro k s t ts ws h
  refine engineSteps_map (P := fun _ => True) (f := State.veiled ts ws) (fun _ _ hen => hen) (fun u v _ huv => ?_)
    trivial h
  obtain ⟨i, ho, hi⟩ := engineStep_next huv
  exact ⟨trivial, (engineStep_of_op (s := u.veiled ts ws) ho).trans (iterate_veiled hi)⟩

/-! ## Bytes pushed early -/

/-- Emission does not read the source. -/
theorem emitThen_withSrc {src : Source} {x : U8} {f : Block → Block} {s t : State} (h : emitThen x f s = .next t) :
    emitThen x f (s.withSrc src) = .next (t.withSrc src) := by
  obtain ⟨hn, rfl⟩ := emitThen_next h
  exact emitThen_of_lt (s := s.withSrc src) hn x f

/-- An operation that does not stream does not read the source (R96). -/
theorem iterate_withSrc {src : Source} {i : Instr} (hi : streams i = false) {s t : State} (h : iterate i s = .next t) :
    iterate i (s.withSrc src) = .next (t.withSrc src) := by
  cases i with
  | encu =>
    rw [iterate, iterEncu_eq_emitThen] at h ⊢
    exact emitThen_withSrc h
  | encs =>
    rw [iterate, iterEncs_eq_emitThen] at h ⊢
    exact emitThen_withSrc h
  | decu | decs =>
    obtain rfl := Host.Outcome.next.inj h
    rfl
  | readu | reads => cases hi

/-- The source, open, with further bytes at its end. -/
def Source.fed (more : List U8) (src : Source) : Source := ⟨src.queue ++ more, false⟩

/-- On an open source a streaming decoder takes the head byte, whatever stands behind it (R57). -/
theorem decodeStream_fed {more : List U8} {cap : Nat} {f e : Block → Block} {s t : State} (ho : s.src.closed = false)
    (h : decodeStream cap f e s = .next t) :
    decodeStream cap f e (s.withSrc (s.src.fed more)) = .next (t.withSrc (t.src.fed more)) := by
  obtain ⟨x, rest, hq, e'⟩ | ⟨-, hc, -⟩ | ⟨-, -, e'⟩ := decodeStream_cases cap f e s
  · obtain rfl := Host.Outcome.next.inj (e'.symm.trans h)
    have hfed : (s.withSrc (s.src.fed more)).src.queue = x :: (rest ++ more) := congrArg (· ++ more) hq
    exact decodeStream_of_cons hfed cap f e
  · simp [ho] at hc
  · cases e'.symm.trans h

/-- No iteration notices bytes at the end of an open source (R102). -/
theorem iterate_fed {more : List U8} {i : Instr} {s t : State} (ho : s.src.closed = false)
    (h : iterate i s = .next t) : iterate i (s.withSrc (s.src.fed more)) = .next (t.withSrc (t.src.fed more)) := by
  cases hs : streams i with
  | true =>
    cases i with
    | readu =>
      rw [iterate, iterReadu] at h ⊢
      exact decodeStream_fed ho h
    | reads =>
      rw [iterate, iterReads] at h ⊢
      exact decodeStream_fed ho h
    | encu | encs | decu | decs => cases hs
  | false =>
    have hself : t = t.withSrc s.src := Host.Outcome.next.inj (h.symm.trans (iterate_withSrc hs h))
    have hsrc : t.src = s.src := by simpa using congrArg State.src hself
    rw [hsrc]
    exact iterate_withSrc hs h

/-- Settles O39: an engine step leaves the source open and does not notice the further bytes, which take no step
from the engine. -/
theorem earlyPushesDoNotChangeTheOutcome : Obligations.EarlyPushesDoNotChangeTheOutcome := by
  intro k s t more ho h
  refine engineSteps_map (P := fun u => u.src.closed = false) (f := fun u => u.withSrc (u.src.fed more))
    (fun u hu hen => ?_) (fun u v hu huv => ?_) ho h
  · obtain ⟨hp, i, hop, hs⟩ := engineEnabled_run hen
    refine (engineEnabled_iff _).mpr ⟨hp, i, hop, fun hi => ?_⟩
    have hq := (u.src.canAnswer_iff.mp (hs hi)).resolve_right (by simp [hu])
    exact (Source.canAnswer_iff _).mpr (.inl (List.append_ne_nil_of_left_ne_nil hq more))
  · obtain ⟨i, hop, hi⟩ := engineStep_next huv
    exact ⟨(iterate_frame hi).closed.trans hu,
      (engineStep_of_op (s := u.withSrc (u.src.fed more)) hop).trans (iterate_fed hu hi)⟩

end Sys2Proof.Machine
end

section
/-! SUPPORT. One iteration of each unsigned operation as an equation (41_unsigned.md R111, R115, R121), with the
statements on them. -/

namespace Sys2Proof.Machine

/-! ## Iterations, case by case -/

/-- ENCU goes on where something remains (R111). -/
theorem iterEncu_of_more {s : State} (hn : s.blk.status.nbytes.toNat < 10) (hr : s.blk.rem ≠ 0) :
    iterEncu s = .next (s.withBlk (s.blk.emit (groupByte s.blk.v true) hn).advanceEncu) := by
  rw [iterEncu, if_pos hr, emitThen_of_lt hn]

/-- ENCU completes where nothing remains (R111). -/
theorem iterEncu_of_last {s : State} (hn : s.blk.status.nbytes.toNat < 10) (hr : s.blk.rem = 0) :
    iterEncu s = .next (s.withBlk ((s.blk.emit (groupByte s.blk.v false) hn).finish .none 0)) := by
  rw [iterEncu, if_neg (not_not.mpr hr), emitThen_of_lt hn]

/-- The last byte of an encoding is its group alone (R73). -/
theorem groupByte_false (v : U64) : groupByte v false = (v &&& 0x7F).setWidth 8 := by
  simp [groupByte]

/-- An in-memory decoder that has read all of IBUF's valid bytes ends with TRUNCATED (R117, R138). -/
theorem Block.decodeInput_of_le {b : Block} (h : b.ilen.toNat ≤ b.status.nbytes.toNat) (cap : Nat) (f : Block → Block) :
    b.decodeInput cap f = b.finish .truncated 0 := by
  rw [Block.decodeInput, Block.inputByte_none.mpr h]

/-- An in-memory decoder consumes IBUF[n] below ILEN (R115, R135). -/
theorem Block.decodeInput_of_lt {b : Block} (h : b.status.nbytes.toNat < b.ilen.toNat) (cap : Nat) (f : Block → Block) :
    b.decodeInput cap f = b.consume cap f (b.inputAt b.status.nbytes.toNat) := by
  rw [b.inputAt_of_lt b.status.nbytes.isLt]
  exact ((b.decodeInput_cases cap f).resolve_left fun ⟨hle, _⟩ => absurd h (Nat.not_lt.mpr hle)).2

/-- How a byte consumed by an unsigned decoder routes (R115, R118, R121), with the cap read of the 4-bit register. -/
theorem Block.consume_finishAcc (b : Block) (x : U8) :
    b.consume Config.capU Block.finishAcc x =
      if contBit x = false then (b.accumulate x).finishAcc
      else if (b.accumulate x).status.nbytes = 9 then (b.accumulate x).capHit.finishAcc
      else b.accumulate x := by
  simp only [Block.consume, ← BitVec.toNat_inj]
  rfl

/-! ## The statements on iterations -/

/-- Settles O22, by whether something remains. -/
theorem encuIteration : Obligations.EncuIteration := by
  refine fun s hn ho => ⟨fun hr => ?_, fun hr => ?_⟩ <;> rw [engineStep_of_op ho, iterate]
  · exact iterEncu_of_more hn hr
  · rw [iterEncu_of_last hn hr, groupByte_false]
    rfl

/-- Settles O25: TRUNCATED at ILEN, and below it the routing of IBUF[n]. -/
theorem decuIteration : Obligations.DecuIteration := by
  refine fun s ho => ⟨fun hle => ?_, fun hlt x hx => ?_⟩ <;> rw [engineStep_of_op ho, iterate, iterDecu]
  · rw [Block.decodeInput_of_le hle]
    rfl
  · obtain rfl : s.blk.inputAt s.blk.status.nbytes.toNat = x := by
      rw [Block.inputAt_of_lt _ s.blk.status.nbytes.isLt]
      exact Option.some.inj ((Vector.getElem?_eq_getElem _).symm.trans hx)
    rw [Block.decodeInput_of_lt hlt, Block.consume_finishAcc]
    rfl

/-- Settles O27: the end of the source, and otherwise the routing of its head byte. -/
theorem readuIteration : Obligations.ReaduIteration := by
  refine fun s ho => ⟨fun hsrc => ?_, fun x rest closed hsrc => ?_⟩ <;> rw [engineStep_of_op ho, iterate, iterReadu]
  · rw [decodeStream_of_ended (by rw [hsrc]) (by rw [hsrc])]
    rfl
  · rw [decodeStream_of_cons (by rw [hsrc]), Block.consume_finishAcc, hsrc]
    rfl

end Sys2Proof.Machine
end

section
/-! SUPPORT. Unsigned lengths and the value of the groups of an unsigned encoding (41_unsigned.md R112, R113, R124),
with the statement on lengths. -/

namespace Sys2Proof.Machine

/-! ## Lengths -/

/-- A value has exactly n + 2 groups where it fits in n + 2 and not in n + 1 (R113). -/
theorem encULen_eq_iff {x : U64} {n : Nat} :
    encULen x = n + 2 ↔ 2 ^ (7 * (n + 1)) ≤ x.toNat ∧ x.toNat < 2 ^ (7 * (n + 2)) := by
  rw [← encULen_le (by omega), ← Nat.not_lt, ← encULen_le (by omega)]
  omega

/-- Ten bytes are needed exactly from 2^63 on (R113). -/
theorem nine_lt_encULen_iff {x : U64} : 9 < encULen x ↔ 2 ^ 63 ≤ x.toNat := by
  rw [← Nat.not_le, encULen_le (by omega), Nat.not_lt]

/-! ## The groups of a value -/

/-- The payload of an emitted byte as a number (R72, R73). -/
theorem toNat_payload_groupByte (v : U64) (more : Bool) : (payload (groupByte v more)).toNat = v.toNat % 128 := by
  rw [payload_groupByte, BitVec.toNat_and]
  exact Nat.and_two_pow_sub_one_eq_mod v.toNat 7

/-- What is left of a value for its last group is one group, and it is not 0 unless the value is (R113). -/
theorem last_group (x : U64) :
    (x >>> (7 * (encULen x - 1))).toNat < 128 ∧ (x ≠ 0 → x >>> (7 * (encULen x - 1)) ≠ 0) := by
  obtain ⟨n, hn⟩ : ∃ n, encULen x = n + 1 := Nat.exists_eq_add_one.mpr (encULen_pos x)
  rw [hn, Nat.add_sub_cancel]
  constructor
  · rw [BitVec.toNat_ushiftRight, Nat.shiftRight_eq_div_pow]
    refine Nat.div_lt_of_lt_mul ?_
    have h := (encULen_le (by omega)).mp hn.le
    rwa [Nat.mul_succ, Nat.pow_add] at h
  · intro hx
    cases n with
    | zero => simpa using hx
    | succ n => exact (encU_more x n).mpr (by omega)

/-- Settles O42: the table from the bound on each length, the last payload from what is left for it. -/
theorem unsignedLengthTable : Obligations.UnsignedLengthTable := by
  intro x
  have hpos := encULen_pos x
  have h1 : encULen x ≤ 1 ↔ x.toNat < 2 ^ 7 := encULen_le le_rfl
  have h9 := @nine_lt_encULen_iff x
  have h10 := encULen_le_ten x
  refine ⟨by omega, fun k hk2 _ => ?_, by omega, h10, fun hx hzero => ?_⟩
  · obtain ⟨n, rfl⟩ := Nat.exists_eq_add_of_le' hk2
    rw [encULen_eq_iff, Nat.lt_iff_le_pred (Nat.two_pow_pos _)]
    rfl
  · obtain ⟨hlt, hne⟩ := last_group x
    have hpay : payload (encUByte x (encULen x - 1)) = 0 := congrArg (BitVec.setWidth 64) hzero
    rw [encUByte_of_lt (by omega), ← BitVec.toNat_inj, toNat_payload_groupByte, Nat.mod_eq_of_lt hlt] at hpay
    exact hne hx (BitVec.eq_of_toNat_eq hpay)

/-! ## The value of the groups -/

/-- The sum of the first m ≤ 9 groups of a value is its low 7m bits (R72, R124). -/
theorem toNat_groupSum_of_encUByte {x : U64} {f : Nat → U8} {m : Nat} (hm : m ≤ 9) (hL : m ≤ encULen x)
    (hf : ∀ k, k < m → f k = encUByte x k) : (groupSum f m).toNat = x.toNat % 2 ^ (7 * m) := by
  induction m with
  | zero => simp [groupSum, Nat.mod_one]
  | succ n ih =>
    have hlt := groupSum_lt f n (by omega)
    rw [groupSum, (toNat_accum (by omega) hlt (f n)).1, ih (by omega) (by omega) fun k hk => hf k (by omega),
      hf n (by omega), encUByte_of_lt (by omega), toNat_payload_groupByte, BitVec.toNat_ushiftRight,
      Nat.shiftRight_eq_div_pow, Nat.mul_succ, Nat.pow_add, Nat.mod_mul]
    ring

/-- A value without bit 63 is its low 63 bits (R124). -/
theorem toNat_and_low63 (x : U64) : (x &&& 0x7FFFFFFFFFFFFFFF).toNat = x.toNat % 2 ^ 63 := by
  rw [BitVec.toNat_and]
  exact Nat.and_two_pow_sub_one_eq_mod x.toNat 63

/-- A value below 2^63 has no bit 63. -/
theorem and_low63_of_lt {x : U64} (h : x.toNat < 2 ^ 63) : x &&& 0x7FFFFFFFFFFFFFFF = x :=
  BitVec.eq_of_toNat_eq (by rw [toNat_and_low63, Nat.mod_eq_of_lt h])

/-- Under the cap 9 the groups of an encoding give the value without bit 63 (R124). -/
theorem groupSum_of_encUByte {x : U64} {f : Nat → U8} (hf : ∀ k, k < encULen x → f k = encUByte x k) :
    groupSum f (min (encULen x) 9) = x &&& 0x7FFFFFFFFFFFFFFF := by
  apply BitVec.eq_of_toNat_eq
  rw [toNat_groupSum_of_encUByte (Nat.min_le_right ..) (Nat.min_le_left ..) fun k hk => hf k (by omega),
    toNat_and_low63]
  by_cases h : encULen x ≤ 9
  · have hx := (encULen_le (encULen_pos x)).mp (le_refl (encULen x))
    have hx9 := (encULen_le (by omega)).mp h
    rw [Nat.min_eq_left h, Nat.mod_eq_of_lt hx, Nat.mod_eq_of_lt hx9]
  · rw [Nat.min_eq_right (by omega)]

/-- The continuation flags of an encoding (R70, R73). -/
theorem contBit_encUByte {x : U64} {k : Nat} (hk : k < encULen x) :
    contBit (encUByte x k) = decide (k + 1 < encULen x) := by
  rw [encUByte_of_lt hk, contBit_groupByte]

/-- Under the cap 9 an encoding is one varint, cut at its ninth byte where it has ten (R71, R124). -/
theorem varintLen_of_encUByte {x : U64} {f : Nat → U8} (hf : ∀ k, k < encULen x → f k = encUByte x k) :
    varintLen 9 f = min (encULen x) 9 := by
  have hpos := encULen_pos x
  have hc {k : Nat} (hk : k < encULen x) : contBit (f k) = decide (k + 1 < encULen x) := by
    rw [hf k hk, contBit_encUByte hk]
  refine varintLen_unique (by omega) (by omega) (fun k hk => ?_) fun h => ?_
  · rw [hc (by omega)]; exact decide_eq_true (by omega)
  · rw [hc (by omega), decide_eq_true_iff] at h; omega

end Sys2Proof.Machine
end

section
/-! SUPPORT. Runs of the engine from the start of an operation (40_operation_lifecycle.md R93, R97, R178), and the
closed form of ENCU (41_unsigned.md R112) as a run that counts the bytes emitted. -/

namespace Sys2Proof.Machine

/-! ## Runs of an operation -/

/-- What holds after n engine steps for every n up to k, where each of the k steps carries it on. -/
theorem engineSteps_reach {P : Nat → State → Prop} {s : State} (h0 : P 0 s) (k : Nat)
    (step : ∀ n t, n < k → P n t → engineEnabled t = true ∧ ∃ u, engineStep t = .next u ∧ P (n + 1) u) :
    ∃ u, engineSteps k s = some u ∧ P k u := by
  induction k with
  | zero => exact ⟨s, rfl, h0⟩
  | succ k ih =>
    obtain ⟨t, ht, hP⟩ := ih fun n t hn => step n t (by omega)
    obtain ⟨hen, u, hu, hPu⟩ := step k t (by omega) hP
    exact ⟨u, by rw [engineSteps_add, ht]; exact engineSteps_succ hen hu 0, hPu⟩

/-- One more engine step at the end of a run (R97). -/
theorem runsTo_succ {i : Instr} {s t u : State} {k : Nat} (h : runsTo i s k t) (hen : engineEnabled t = true)
    (hst : engineStep t = .next u) : runsTo i s (k + 1) u := by
  obtain ⟨a, ha, hk⟩ := h
  exact ⟨a, ha, by rw [engineSteps_add, hk]; exact engineSteps_succ hen hst 0⟩

/-- `engineSteps_reach` from the start of an operation on an idle block. -/
theorem runsTo_reach {P : Nat → State → Prop} {i : Instr} {s : State} (hb : s.blk.status.busy = false)
    (h0 : P 0 (s.withBlk (s.blk.begun i))) (k : Nat)
    (step : ∀ n t, n < k → P n t → engineEnabled t = true ∧ ∃ u, engineStep t = .next u ∧ P (n + 1) u) :
    ∃ u, runsTo i s k u ∧ P k u := by
  obtain ⟨u, hu, hP⟩ := engineSteps_reach h0 k step
  exact ⟨u, ⟨_, exec_idle hb i, hu⟩, hP⟩

/-- An operation `i` that `s` started is running in `t`, with n bytes emitted or consumed: its outputs so far, and
what no operation changes. -/
structure State.Underway (i : Instr) (s : State) (n : Nat) (t : State) : Prop where
  phase     : t.blk.phase = .run
  op_eq     : t.blk.op = opcode i
  outputs   : t.blk.Partial
  nbytes_eq : t.blk.status.nbytes.toNat = n
  keeps     : s.KeepsInputs t

/-- Start leaves an operation underway with no byte yet (R93). -/
theorem State.Underway.begun (i : Instr) (s : State) : State.Underway i s 0 (s.withBlk (s.blk.begun i)) := by
  cases i <;> exact ⟨rfl, rfl, ⟨rfl, rfl, rfl, rfl, rfl⟩, rfl, ⟨rfl, rfl, rfl, rfl, rfl, rfl, rfl, rfl⟩⟩

/-- An operation underway has a step, where the source can answer if it streams (R96). -/
theorem State.Underway.engineEnabled {i : Instr} {s t : State} {n : Nat} (h : State.Underway i s n t)
    (hs : streams i = true → t.src.canAnswer = true) : Machine.engineEnabled t = true :=
  (engineEnabled_iff t).mpr ⟨h.phase, i, h.op_eq, hs⟩

/-- An engine step that counts a byte and leaves phase and outputs goes on with the operation. -/
theorem State.Underway.goOn {i : Instr} {s t u : State} {n : Nat} (h : State.Underway i s n t) (hn : n < 15)
    (hstep : engineStep t = .next u) (hp : u.blk.phase = t.blk.phase) (hst : u.blk.status = t.blk.status.counted)
    (hr : u.blk.result = t.blk.result) : State.Underway i s (n + 1) u := by
  obtain ⟨phase, op, ⟨busy, done, err, caphit, result⟩, nbytes, keeps⟩ := h
  obtain ⟨hkeeps, hop, -⟩ := engineStepFrame t u hstep
  refine ⟨hp.trans phase, hop.trans op, ⟨?_, ?_, ?_, ?_, hr.trans result⟩, ?_, keeps.trans hkeeps⟩
  · rw [hst]; exact busy
  · rw [hst]; exact done
  · rw [hst]; exact err
  · rw [hst]; exact caphit
  · rw [hst, ← nbytes]; exact toNat_add_one (by omega)

/-- Finish completes an operation with the byte count and the cap flag it finds (R99). -/
theorem Block.finish_completed (b : Block) (e : ErrCode) (w : U64) :
    (b.finish e w).Completed e w b.status.caphit b.status.nbytes.toNat :=
  ⟨rfl, rfl, rfl, rfl, rfl, rfl, rfl⟩

/-! ## ENCU -/

/-- ENCU underway: its loop invariant, OBUF still 0 from the next byte on, and the source untouched. -/
structure State.EncuUnderway (s : State) (n : Nat) (t : State) : Prop extends State.Underway .encu s n t where
  loop     : t.blk.EncuLoop
  rest     : ∀ k, n ≤ k → t.blk.outputAt k = 0
  src_eq   : t.src = s.src

/-- OBUF cleared by Start holds 0 at every index (R36, R93). -/
theorem Block.outputAt_of_cleared {b : Block} (h : b.obuf = Vector.replicate 10 0) (k : Nat) : b.outputAt k = 0 := by
  rw [Block.outputAt, h, Vector.toList_replicate, List.getD_eq_getElem?_getD,
    List.getElem?_getD_replicate_default_eq]

/-- Start leaves ENCU underway (R110). -/
theorem State.EncuUnderway.begun (s : State) : s.EncuUnderway 0 (s.withBlk (s.blk.begun .encu)) where
  toUnderway := .begun .encu s
  loop := s.blk.begun_loop .encu
  rest k _ := Block.outputAt_of_cleared rfl k
  src_eq := rfl

/-- What remains for ENCU after n bytes and the one it emits next (R111). -/
theorem State.EncuUnderway.rem_eq {s t : State} {n : Nat} (h : s.EncuUnderway n t) :
    t.blk.rem = s.blk.operand >>> (7 * (n + 1)) := by
  rw [h.loop.rem_eq, h.keeps.operand, h.nbytes_eq]

/-- Before its last byte ENCU goes on (R111). -/
theorem State.EncuUnderway.step {s t : State} {n : Nat} (h : s.EncuUnderway n t)
    (hn : n + 1 < encULen s.blk.operand) :
    ∃ u, engineStep t = .next u ∧ s.EncuUnderway (n + 1) u := by
  have hL := encULen_le_ten s.blk.operand
  have hr : t.blk.rem ≠ 0 := h.rem_eq ▸ (encU_more _ n).mpr hn
  have he := (engineStep_of_op h.op_eq).trans (iterEncu_of_more h.loop.nbytes_lt hr)
  refine ⟨_, he, h.goOn (by omega) he rfl rfl rfl, h.loop.emit_advance hr _, fun k hk => ?_, h.src_eq⟩
  exact (t.blk.outputAt_emit_of_ne _ h.loop.nbytes_lt (by rw [h.nbytes_eq]; omega)).trans (h.rest k (by omega))

/-- The bytes ENCU has emitted are those of the encoding (R112). -/
theorem State.EncuUnderway.emitted {s t : State} {n : Nat} (h : s.EncuUnderway n t) (hn : n < encULen s.blk.operand)
    {k : Nat} (hk : k < n) : t.blk.outputAt k = encUByte s.blk.operand k := by
  rw [h.loop.emitted k (h.nbytes_eq.symm ▸ hk), h.keeps.operand, encUByte_of_lt (by omega), decide_eq_true (by omega)]

/-- At its last byte ENCU completes, and OBUF holds the encoding (R111, R112). -/
theorem State.EncuUnderway.last {s t : State} {n : Nat} (h : s.EncuUnderway n t) (hn : encULen s.blk.operand = n + 1) :
    ∃ u, engineStep t = .next u ∧ u.blk.Completed .none 0 false (n + 1) ∧
      (∀ k, u.blk.outputAt k = encUByte s.blk.operand k) ∧ s.KeepsInputs u ∧ u.src = s.src := by
  have hL := encULen_le_ten s.blk.operand
  have hlt := h.loop.nbytes_lt
  have hr : t.blk.rem = 0 := by
    rw [h.rem_eq, ← not_ne_iff, encU_more]; omega
  have he := (engineStep_of_op h.op_eq).trans (iterEncu_of_last hlt hr)
  have hcount : (t.blk.status.nbytes + 1).toNat = n + 1 := by rw [toNat_add_one (by omega), h.nbytes_eq]
  have hbyte : groupByte t.blk.v false = encUByte s.blk.operand n := by
    rw [encUByte_of_lt (by omega), decide_eq_false (by omega), h.loop.v_eq, h.keeps.operand, h.nbytes_eq]
  refine ⟨_, he, ?_, fun k => ?_, h.keeps.trans (engineStepFrame _ _ he).1, h.src_eq⟩
  · have hc := (t.blk.emit (groupByte t.blk.v false) hlt).finish_completed .none 0
    rw [Block.emit_status, Status.counted_nbytes, hcount, Status.counted_caphit, h.outputs.caphit_off] at hc
    exact hc
  · obtain hk | rfl | hk := Nat.lt_trichotomy k n
    · exact (t.blk.outputAt_emit_of_ne _ hlt (by rw [h.nbytes_eq]; omega)).trans (h.emitted (by omega) hk)
    · have hself := t.blk.outputAt_emit_self (groupByte t.blk.v false) hlt
      rw [h.nbytes_eq] at hself
      exact hself.trans hbyte
    · refine (t.blk.outputAt_emit_of_ne _ hlt (by rw [h.nbytes_eq]; omega)).trans ((h.rest k hk.le).trans ?_)
      exact (if_neg (by omega)).symm

/-- Settles O41: ENCU goes on up to the last byte of the encoding and completes there. -/
theorem encuClosedForm : Obligations.EncuClosedForm := by
  intro s hb
  obtain ⟨n, hn⟩ : ∃ n, encULen s.blk.operand = n + 1 := Nat.exists_eq_add_one.mpr (encULen_pos _)
  obtain ⟨t, ht, hP⟩ := runsTo_reach (P := s.EncuUnderway) hb (State.EncuUnderway.begun s) n fun m t hm h =>
    ⟨h.engineEnabled nofun, h.step (by omega)⟩
  obtain ⟨u, hu, hc, hbytes, hkeeps, hsrc⟩ := hP.last hn
  rw [hn]
  exact ⟨u, runsTo_succ ht (hP.engineEnabled nofun) hu, hc, fun k _ => hbytes k, hkeeps, hsrc⟩

end Sys2Proof.Machine
end

section
/-! SUPPORT. The decoders as one: an operation that accumulates the bytes it is offered until a varint ends
(40_operation_lifecycle.md R97, R98, 41_unsigned.md R114–R123). The lemmas hold of every decoder; the closed forms of
DECU and READU are two uses of them. -/

namespace Sys2Proof.Machine

/-! ## Decoders and the bytes they are offered -/

/-- The bytes an operation may consume: byte n, how many there are, and the source after n of them. -/
structure Feed where
  byte : Nat → U8
  len  : Nat
  src  : Nat → Source

/-- The bytes of IBUF below ILEN; the source stays as it is (R52). -/
def State.inputFeed (s : State) : Feed := ⟨s.blk.inputAt, s.blk.ilen.toNat, fun _ => s.src⟩

/-- The bytes of the source, each of them taken from its head (R57). -/
def State.sourceFeed (s : State) : Feed :=
  ⟨byteAt s.src.queue, s.src.queue.length, fun n => ⟨s.src.queue.drop n, s.src.closed⟩⟩

/-- A decoder: its command, its cap, its completion, the result after n groups that sum to a word, and its bytes. -/
structure Decoder where
  op       : Instr
  cap      : Nat
  complete : Block → Block
  value    : Nat → U64 → U64
  feed     : State → Feed

/-- `d`, started in `s`, has consumed n of its bytes in `t` and goes on (R115, R121, R135, R141). -/
structure Decoder.Underway (d : Decoder) (s : State) (n : Nat) (t : State) : Prop
    extends State.Underway d.op s n t where
  loop   : t.blk.DecoderLoop d.cap
  acc_eq : t.blk.acc = groupSum (d.feed s).byte n
  src_eq : t.src = (d.feed s).src n

/-- `d`, started in `s`, has completed in `u` with the value of its first L bytes (R116, R123, R137, R142). -/
structure Decoder.Decoded (d : Decoder) (s : State) (L : Nat) (u : State) : Prop where
  completed : u.blk.Completed .none (d.value L (groupSum (d.feed s).byte L)) (contBit ((d.feed s).byte (L - 1))) L
  obuf      : u.blk.obuf = Vector.replicate 10 0
  keeps     : s.KeepsInputs u
  src_eq    : u.src = (d.feed s).src L

/-- What makes a decoder one: how it begins, completes and takes a byte it is offered. -/
structure Decoder.Lawful (d : Decoder) : Prop where
  cap_pos   : 1 ≤ d.cap
  cap_le    : d.cap ≤ 9
  begun     : ∀ b : Block, b.begun d.op = (b.start (opcode d.op)).clearAcc
  src_zero  : ∀ s : State, (d.feed s).src 0 = s.src
  frame     : ∀ b : Block, b.DecoderFrame (d.complete b)
  completed : ∀ b : Block, 1 ≤ b.status.nbytes.toNat → b.status.nbytes.toNat ≤ 9 →
    b.acc.toNat < 2 ^ (7 * b.status.nbytes.toNat) → b.mask = ONES <<< (7 * b.status.nbytes.toNat) →
    (d.complete b).Completed .none (d.value b.status.nbytes.toNat b.acc) b.status.caphit b.status.nbytes.toNat
  consumes  : ∀ {s t : State} {n : Nat}, d.Underway s n t → n < (d.feed s).len →
    engineEnabled t = true ∧ engineStep t =
      .next ((t.withBlk (t.blk.consume d.cap d.complete ((d.feed s).byte n))).withSrc ((d.feed s).src (n + 1)))

section
variable {d : Decoder} {s t : State} {n : Nat}

/-- Start leaves a decoder underway (R114, R120, R134, R140). -/
theorem Decoder.Lawful.underway_begun (hd : d.Lawful) (s : State) : d.Underway s 0 (s.withBlk (s.blk.begun d.op)) where
  toUnderway := .begun d.op s
  loop := by rw [State.withBlk_blk, hd.begun]; exact s.blk.start_decoderLoop _ hd.cap_pos
  acc_eq := by rw [State.withBlk_blk, hd.begun]; rfl
  src_eq := (hd.src_zero s).symm

/-- A byte that ends no varint, below the cap, keeps the decoder underway (R158). -/
theorem Decoder.Lawful.underway_succ (hd : d.Lawful) (h : d.Underway s n t) (hlen : n < (d.feed s).len)
    (hcont : contBit ((d.feed s).byte n) = true) (hcap : n + 1 < d.cap) :
    engineEnabled t = true ∧ ∃ u, engineStep t = .next u ∧ d.Underway s (n + 1) u := by
  obtain ⟨hen, hst⟩ := hd.consumes h hlen
  have hcount := h.loop.nbytes_accumulate hd.cap_le ((d.feed s).byte n)
  rw [h.nbytes_eq] at hcount
  have hconsume : t.blk.consume d.cap d.complete ((d.feed s).byte n) = t.blk.accumulate ((d.feed s).byte n) := by
    obtain ⟨hc, -⟩ | ⟨-, hn, -⟩ | ⟨-, -, e⟩ := t.blk.consume_cases d.cap d.complete ((d.feed s).byte n)
    · simp [hcont] at hc
    · omega
    · exact e
  rw [hconsume] at hst
  have hle := hd.cap_le
  refine ⟨hen, _, hst, h.goOn (by omega) hst rfl rfl rfl, h.loop.accumulate hd.cap_le _ (by omega), ?_, rfl⟩
  rw [State.withSrc_blk, State.withBlk_blk, Block.accumulate_acc, h.acc_eq, h.nbytes_eq]
  rfl

/-- A byte that ends the varint, or the last one under the cap, leaves a decoder to its completion, which finds the sum
of n + 1 groups and CAPHIT set where the byte's continuation bit is (R118, R139, R158). -/
theorem Decoder.Underway.consume_eq_complete (h : d.Underway s n t) (hcap : d.cap ≤ 9)
    (hend : contBit ((d.feed s).byte n) = true → n + 1 = d.cap) :
    ∃ c : Block, t.blk.consume d.cap d.complete ((d.feed s).byte n) = d.complete c ∧ t.blk.DecoderFrame c ∧
      c.status.nbytes.toNat = n + 1 ∧ c.status.caphit = contBit ((d.feed s).byte n) ∧
      c.acc = groupSum (d.feed s).byte (n + 1) ∧ c.mask = ONES <<< (7 * (n + 1)) := by
  have hcount := h.loop.nbytes_accumulate hcap ((d.feed s).byte n)
  rw [h.nbytes_eq] at hcount
  have hacc : (t.blk.accumulate ((d.feed s).byte n)).acc = groupSum (d.feed s).byte (n + 1) := by
    rw [Block.accumulate_acc, h.acc_eq, h.nbytes_eq]; rfl
  have hmask : (t.blk.accumulate ((d.feed s).byte n)).mask = ONES <<< (7 * (n + 1)) := by
    rw [Block.accumulate_mask, h.loop.mask_eq, h.nbytes_eq, ← BitVec.shiftLeft_add]; rfl
  have hframe := t.blk.accumulate_decoderFrame ((d.feed s).byte n)
  obtain ⟨hc, e⟩ | ⟨hc, -, e⟩ | ⟨hc, hne, -⟩ := t.blk.consume_cases d.cap d.complete ((d.feed s).byte n)
  · exact ⟨_, e, hframe, hcount, h.outputs.caphit_off.trans hc.symm, hacc, hmask⟩
  · exact ⟨_, e, hframe.trans (Block.capHit_decoderFrame _), hcount, hc.symm, hacc, hmask⟩
  · exact absurd (hcount.trans (hend hc)) hne

/-- A byte that ends the varint, or the last one under the cap, completes the decoder (R158). -/
theorem Decoder.Lawful.decoded_succ (hd : d.Lawful) (h : d.Underway s n t) (hlen : n < (d.feed s).len)
    (hend : contBit ((d.feed s).byte n) = true → n + 1 = d.cap) :
    engineEnabled t = true ∧ ∃ u, engineStep t = .next u ∧ d.Decoded s (n + 1) u := by
  obtain ⟨hen, hst⟩ := hd.consumes h hlen
  obtain ⟨c, hc, hframe, hcount, hcaphit, hacc, hmask⟩ := h.consume_eq_complete hd.cap_le hend
  have hlt : n < d.cap := h.nbytes_eq ▸ h.loop.nbytes_lt
  have hle := hd.cap_le
  have hdone := hd.completed c
  rw [hcount, hcaphit, hacc] at hdone
  rw [hc] at hst
  exact ⟨hen, _, hst, {
    completed := hdone (by omega) (by omega) (groupSum_lt _ _ (by omega)) hmask
    obuf := ((hframe.trans (hd.frame c)).obuf).trans h.loop.obuf_zero
    keeps := h.keeps.trans (engineStepFrame _ _ hst).1
    src_eq := rfl }⟩

/-- While the bytes have their continuation bits set, and below the cap, a decoder started on an idle block goes on. -/
theorem Decoder.Lawful.runsTo_underway (hd : d.Lawful) (hb : s.blk.status.busy = false) (hcap : n < d.cap)
    (hlen : n ≤ (d.feed s).len) (hcont : ∀ k, k < n → contBit ((d.feed s).byte k) = true) :
    ∃ t, runsTo d.op s n t ∧ d.Underway s n t :=
  runsTo_reach (P := d.Underway s) hb (hd.underway_begun s) n fun k _ hk h =>
    hd.underway_succ h (by omega) (hcont k hk) (by omega)

/-- A decoder started on an idle block completes with the varint, where the bytes hold one (R116, R123, R137, R142). -/
theorem Decoder.Lawful.runsTo_decoded (hd : d.Lawful) (hb : s.blk.status.busy = false)
    (hlen : varintLen d.cap (d.feed s).byte ≤ (d.feed s).len) :
    ∃ u, runsTo d.op s (varintLen d.cap (d.feed s).byte) u ∧ d.Decoded s (varintLen d.cap (d.feed s).byte) u := by
  obtain ⟨hpos, hcap, hconts, hend⟩ := varintLen_spec d.cap hd.cap_pos (d.feed s).byte
  obtain ⟨n, hn⟩ : ∃ n, varintLen d.cap (d.feed s).byte = n + 1 := Nat.exists_eq_add_one.mpr hpos
  rw [hn] at hlen hcap hconts hend ⊢
  obtain ⟨t, ht, hP⟩ := hd.runsTo_underway (n := n) hb (by omega) (by omega) fun k hk => hconts k (by omega)
  obtain ⟨hen, u, hu, hdec⟩ := hd.decoded_succ hP (by omega) hend
  exact ⟨u, runsTo_succ ht hen hu, hdec⟩

end

/-! ## In-memory decoders -/

/-- What `Lawful.consumes` asks of an in-memory decoder: IBUF[n] is the byte consumed below ILEN (R115, R135). -/
theorem Decoder.Underway.consumes_input {d : Decoder} {s t : State} {n : Nat} (h : d.Underway s n t)
    (hfeed : d.feed = State.inputFeed) (hs : streams d.op = false)
    (hi : iterate d.op t = .next (t.withBlk (t.blk.decodeInput d.cap d.complete))) (hn : n < (d.feed s).len) :
    engineEnabled t = true ∧ engineStep t =
      .next ((t.withBlk (t.blk.consume d.cap d.complete ((d.feed s).byte n))).withSrc ((d.feed s).src (n + 1))) := by
  refine ⟨h.engineEnabled (by simp [hs]), ?_⟩
  have hsrc := h.src_eq
  rw [hfeed] at hn hsrc ⊢
  have hlt : t.blk.status.nbytes.toNat < t.blk.ilen.toNat := by rw [h.nbytes_eq, h.keeps.ilen]; exact hn
  have hbyte : t.blk.inputAt t.blk.status.nbytes.toNat = s.inputFeed.byte n := by
    rw [h.nbytes_eq, Block.inputAt, h.keeps.ibuf]; rfl
  rw [engineStep_of_op h.op_eq, hi, Block.decodeInput_of_lt hlt, hbyte]
  exact congrArg (fun src => Host.Outcome.next ((t.withBlk _).withSrc src)) hsrc

/-- An in-memory decoder that has consumed all bytes below ILEN ends with TRUNCATED (R117, R138). -/
theorem Decoder.Underway.truncated {d : Decoder} {s t : State} {n : Nat} (h : d.Underway s n t)
    (hfeed : d.feed = State.inputFeed) (hs : streams d.op = false)
    (hi : iterate d.op t = .next (t.withBlk (t.blk.decodeInput d.cap d.complete))) (hn : s.blk.ilen.toNat = n) :
    ∃ u, engineEnabled t = true ∧ engineStep t = .next u ∧ u.blk.Completed .truncated 0 false n ∧
      u.blk.obuf = Vector.replicate 10 0 ∧ s.KeepsInputs u ∧ u.src = s.src := by
  have hle : t.blk.ilen.toNat ≤ t.blk.status.nbytes.toNat := by rw [h.nbytes_eq, h.keeps.ilen, hn]
  have hst : engineStep t = .next (t.withBlk (t.blk.finish .truncated 0)) := by
    rw [engineStep_of_op h.op_eq, hi, Block.decodeInput_of_le hle]
  have hdone := t.blk.finish_completed .truncated 0
  rw [h.nbytes_eq, h.outputs.caphit_off] at hdone
  refine ⟨_, h.engineEnabled (by simp [hs]), hst, hdone, h.loop.obuf_zero,
    h.keeps.trans (engineStepFrame _ _ hst).1, ?_⟩
  rw [State.withBlk_src, h.src_eq, hfeed]
  rfl

/-! ## Streaming decoders -/

/-- What `Lawful.consumes` asks of a streaming decoder: the head byte is the one consumed (R121, R141). -/
theorem Decoder.Underway.consumes_source {d : Decoder} {s t : State} {n : Nat} (h : d.Underway s n t)
    (hfeed : d.feed = State.sourceFeed) {e : Block → Block}
    (hi : iterate d.op t = decodeStream d.cap d.complete e t) (hn : n < (d.feed s).len) :
    engineEnabled t = true ∧ engineStep t =
      .next ((t.withBlk (t.blk.consume d.cap d.complete ((d.feed s).byte n))).withSrc ((d.feed s).src (n + 1))) := by
  have hsrc := h.src_eq
  rw [hfeed] at hn hsrc ⊢
  have hq : t.src.queue = s.sourceFeed.byte n :: s.src.queue.drop (n + 1) := by
    rw [hsrc]
    exact (List.drop_eq_getElem_cons hn).trans (congrArg (· :: _) (List.getD_eq_getElem _ _ hn).symm)
  refine ⟨h.engineEnabled fun _ => t.src.canAnswer_iff.mpr (.inl (by simp [hq])), ?_⟩
  rw [engineStep_of_op h.op_eq, hi, decodeStream_of_cons hq, hsrc]
  rfl

/-- A streaming decoder that has consumed all bytes of the source finds it empty. -/
theorem Decoder.Underway.src_of_consumed {d : Decoder} {s t : State} (h : d.Underway s s.src.queue.length t)
    (hfeed : d.feed = State.sourceFeed) : t.src = ⟨[], s.src.closed⟩ := by
  rw [h.src_eq, hfeed]
  exact congrArg (Source.mk · s.src.closed) List.drop_length

/-! ## DECU and READU -/

/-- DECU (R114–R119). -/
def Decoder.decu : Decoder := ⟨.decu, Config.capU, Block.finishAcc, fun _ acc => acc, State.inputFeed⟩

/-- READU (R120–R123). -/
def Decoder.readu : Decoder := ⟨.readu, Config.capU, Block.finishAcc, fun _ acc => acc, State.sourceFeed⟩

theorem Decoder.decu_lawful : Decoder.decu.Lawful where
  cap_pos := by decide
  cap_le := by decide
  begun _ := rfl
  src_zero _ := rfl
  frame := Block.finishAcc_decoderFrame
  completed b _ _ _ _ := b.finish_completed .none b.acc
  consumes h := h.consumes_input rfl rfl rfl

theorem Decoder.readu_lawful : Decoder.readu.Lawful where
  cap_pos := by decide
  cap_le := by decide
  begun _ := rfl
  src_zero _ := rfl
  frame := Block.finishAcc_decoderFrame
  completed b _ _ _ _ := b.finish_completed .none b.acc
  consumes h := h.consumes_source (e := fun b => b.finish .unexpectedEoi 0) rfl rfl

/-- Settles O46: the bytes below ILEN run out underway, or hold the varint. -/
theorem decuClosedForm : Obligations.DecuClosedForm := by
  refine fun s hb => ⟨fun ⟨hcap, hconts⟩ => ?_, fun hout => ?_⟩
  · obtain ⟨t, ht, hP⟩ := Decoder.decu_lawful.runsTo_underway hb hcap le_rfl hconts
    obtain ⟨u, hen, hu, hdone⟩ := hP.truncated rfl rfl rfl rfl
    exact ⟨u, runsTo_succ ht hen hu, hdone⟩
  · have hlen := varintLen_le (by decide) hout
    obtain ⟨u, hu, hdone, hobuf, hkeeps, hsrc⟩ := Decoder.decu_lawful.runsTo_decoded hb hlen
    exact ⟨hlen, (varintLen_spec 9 (by decide) _).2.2.2, u, hu, hdone, hobuf, hkeeps, hsrc⟩

/-- READU at the end of a closed source ends with UNEXPECTED_EOI (R122). -/
theorem Decoder.Underway.unexpectedEoi {s t : State} {n : Nat} (h : Decoder.readu.Underway s n t)
    (hsrc : t.src = ⟨[], true⟩) :
    ∃ u, engineEnabled t = true ∧ engineStep t = .next u ∧ u.blk.Completed .unexpectedEoi 0 false n ∧
      u.src = ⟨[], true⟩ ∧ u.blk.obuf = Vector.replicate 10 0 ∧ s.KeepsInputs u := by
  have hst : engineStep t = _ := (engineStep_of_op h.op_eq).trans
    (decodeStream_of_ended (by rw [hsrc]) (by rw [hsrc]) Config.capU Block.finishAcc fun b => b.finish .unexpectedEoi 0)
  have hdone := t.blk.finish_completed .unexpectedEoi 0
  rw [h.nbytes_eq, h.outputs.caphit_off] at hdone
  exact ⟨_, h.engineEnabled fun _ => by rw [hsrc]; rfl, hst, hdone, hsrc, h.loop.obuf_zero,
    h.keeps.trans (engineStepFrame _ _ hst).1⟩

/-- Settles O48: the bytes of the source run out underway, where the source is at its end or holds READU, or hold the
varint. -/
theorem readuClosedForm : Obligations.ReaduClosedForm := by
  intro s hb
  have underway (h : runsOut 9 (byteAt s.src.queue) s.src.queue.length) :=
    Decoder.readu_lawful.runsTo_underway hb h.1 le_rfl h.2
  refine ⟨fun hout hclosed => ?_, fun hout hopen => ?_, fun hout => ?_⟩
  · obtain ⟨t, ht, hP⟩ := underway hout
    have hsrc := hclosed ▸ hP.src_of_consumed rfl
    obtain ⟨u, hen, hu, hdone⟩ := hP.unexpectedEoi hsrc
    exact ⟨u, runsTo_succ ht hen hu, hdone⟩
  · obtain ⟨t, ht, hP⟩ := underway hout
    have hsrc := hopen ▸ hP.src_of_consumed rfl
    have hheld : engineEnabled t = false := by rw [engineEnabled_of_run hP.phase hP.op_eq, hsrc]; rfl
    exact ⟨t, ht, hP.phase, hP.outputs.busy, hP.nbytes_eq, hP.acc_eq, hsrc, hheld, hP.loop.obuf_zero, hP.keeps⟩
  · have hlen := varintLen_le (by decide) hout
    obtain ⟨u, hu, hdone, hobuf, hkeeps, hsrc⟩ := Decoder.readu_lawful.runsTo_decoded hb hlen
    exact ⟨hlen, u, hu, hdone, hsrc, hobuf, hkeeps⟩

end Sys2Proof.Machine
end

section
/-! SUPPORT. The round trips of the unsigned family (41_unsigned.md R124, R125): an unsigned decoder that is offered the
bytes of an encoding. -/

namespace Sys2Proof.Machine

/-! ## The bytes of an encoding -/

/-- The unsigned encoding of a value as a list (R112). -/
def encUBytes (x : U64) : List U8 := (List.range (encULen x)).map (encUByte x)

@[simp] theorem length_encUBytes (x : U64) : (encUBytes x).length = encULen x := by simp [encUBytes]

/-- A queue that begins with an encoding, byte by byte. -/
theorem byteAt_encUBytes_append {x : U64} {k : Nat} (hk : k < encULen x) (rest : List U8) :
    byteAt (encUBytes x ++ rest) k = encUByte x k := by
  rw [byteAt, List.getD_append _ _ _ _ (by simpa using hk)]
  simp [encUBytes, hk]

/-- The tenth byte of an encoding that has one (R124). -/
theorem encUByte_nine {x : U64} (h : 2 ^ 63 ≤ x.toNat) : encUByte x 9 = 0x01 := by
  have hL := encULen_le_ten x
  have hnine := nine_lt_encULen_iff.mpr h
  have hx := x.isLt
  have hbit : x >>> 63 = 1 := by
    apply BitVec.eq_of_toNat_eq
    rw [BitVec.toNat_ushiftRight, Nat.shiftRight_eq_div_pow]
    show x.toNat / 2 ^ 63 = 1
    omega
  rw [encUByte_of_lt hnine, decide_eq_false (by omega), hbit]
  rfl

/-- What an encoding holds beyond the cap 9: nothing below 2^63, the tenth byte from there on (R124). -/
theorem drop_nine_encUBytes (x : U64) :
    (encUBytes x).drop (min (encULen x) 9) = if x.toNat < 2 ^ 63 then [] else [0x01] := by
  have hnine := @nine_lt_encULen_iff x
  have hten := encULen_le_ten x
  split
  · exact List.drop_of_length_le (by rw [length_encUBytes]; omega)
  · rw [encUBytes, show encULen x = 10 by omega]
    exact congrArg (fun b => [b]) (encUByte_nine (by omega))

/-! ## Decoding an encoding -/

/-- An unsigned decoder that is offered the bytes of an encoding gives the value without bit 63, in as many bytes as the
cap allows (R124). -/
theorem Decoder.Lawful.runsTo_roundTrip {d : Decoder} (hd : d.Lawful) (hcap : d.cap = 9)
    (hval : d.value = fun _ acc => acc) {s : State} (hb : s.blk.status.busy = false) {x : U64} (hlen : encULen x ≤ (d.feed s).len)
    (hf : ∀ k, k < encULen x → (d.feed s).byte k = encUByte x k) :
    ∃ u, runsTo d.op s (min (encULen x) 9) u ∧
      u.blk.Completed .none (x &&& 0x7FFFFFFFFFFFFFFF) (decide (2 ^ 63 ≤ x.toNat)) (min (encULen x) 9) ∧
      u.src = (d.feed s).src (min (encULen x) 9) := by
  have hpos := encULen_pos x
  have hL : varintLen d.cap (d.feed s).byte = min (encULen x) 9 := hcap ▸ varintLen_of_encUByte hf
  have hflag : contBit ((d.feed s).byte (min (encULen x) 9 - 1)) = decide (2 ^ 63 ≤ x.toNat) := by
    rw [hf _ (by omega), contBit_encUByte (by omega), decide_eq_decide, ← nine_lt_encULen_iff]
    omega
  obtain ⟨u, hu, hdone, -, -, hsrc⟩ := hd.runsTo_decoded hb (by omega)
  rw [hL] at hu hdone hsrc
  rw [hval, groupSum_of_encUByte hf, hflag] at hdone
  exact ⟨u, hu, hdone, hsrc⟩

/-- READU on a source that begins with an encoding, of which it takes at most nine bytes (R124). -/
theorem runsTo_readu_encUBytes {s : State} (hb : s.blk.status.busy = false) {x : U64} {rest : List U8}
    (hq : s.src.queue = encUBytes x ++ rest) :
    ∃ u, runsTo .readu s (min (encULen x) 9) u ∧
      u.blk.Completed .none (x &&& 0x7FFFFFFFFFFFFFFF) (decide (2 ^ 63 ≤ x.toNat)) (min (encULen x) 9) ∧
      u.src = ⟨(encUBytes x ++ rest).drop (min (encULen x) 9), s.src.closed⟩ := by
  have hlen : encULen x ≤ (Decoder.readu.feed s).len := by
    show encULen x ≤ s.src.queue.length
    simp [hq]
  obtain ⟨u, hu, hdone, hsrc⟩ := Decoder.readu_lawful.runsTo_roundTrip rfl rfl hb hlen fun k hk =>
    (congrArg (byteAt · k) hq).trans (byteAt_encUBytes_append hk rest)
  exact ⟨u, hu, hdone, hq ▸ hsrc⟩

/-- Settles O50: OBUF holds the encoding after ENCU, and each decoder gives back what it is offered. -/
theorem unsignedRoundTrip : Obligations.UnsignedRoundTrip := by
  intro s hb x L y cap
  have hnine := @nine_lt_encULen_iff x
  have hten : L ≤ 10 := encULen_le_ten x
  have hy : y = x &&& 0x7FFFFFFFFFFFFFFF := by
    by_cases h : x.toNat < 2 ^ 63
    · exact (if_pos h).trans (and_low63_of_lt h).symm
    · exact if_neg h
  obtain ⟨u, hu, -, hout, -⟩ := encuClosedForm s hb
  rw [hy]
  refine ⟨fun h => by omega, u, hu, fun s' hb' hilen hin => ?_, fun s' hb' hq => ?_⟩
  · obtain ⟨u', hu', hdone, -⟩ := Decoder.decu_lawful.runsTo_roundTrip rfl rfl hb' (x := x) hilen.ge fun k hk =>
      (hin k hk).trans (hout k (by omega))
    exact ⟨u', hu', hdone⟩
  · have hqueue : s'.src.queue = encUBytes x ++ [] := by
      rw [hq, List.append_nil]
      exact List.map_congr_left fun k hk => hout k (by have := List.mem_range.mp hk; omega)
    obtain ⟨u', hu', hdone, hsrc⟩ := runsTo_readu_encUBytes hb' hqueue
    refine ⟨u', hu', hdone, ?_⟩
    rw [hsrc, List.append_nil, drop_nine_encUBytes]

/-- READU on a source that begins with the encoding of a value below 2^63 gives the value and leaves what follows
(R125). -/
theorem runsTo_readu_of_lt {s : State} (hb : s.blk.status.busy = false) {x : U64} (hx : x.toNat < 2 ^ 63)
    {rest : List U8} {closed : Bool} (hsrc : s.src = ⟨encUBytes x ++ rest, closed⟩) :
    ∃ u, runsTo .readu s (encULen x) u ∧ u.blk.Completed .none x false (encULen x) ∧ u.src = ⟨rest, closed⟩ := by
  obtain ⟨u, hu, hdone, husrc⟩ := runsTo_readu_encUBytes hb (congrArg Source.queue hsrc)
  have hL : min (encULen x) 9 = encULen x := by have := @nine_lt_encULen_iff x; omega
  rw [hL, and_low63_of_lt hx, decide_eq_false (by omega)] at hdone
  rw [hL] at hu husrc
  rw [hsrc, List.drop_left' (length_encUBytes x)] at husrc
  exact ⟨u, hu, hdone, husrc⟩

/-- Settles O52: each READU leaves the next one an idle block and what follows its encoding. -/
theorem concatenatedStreamDecodes : Obligations.ConcatenatedStreamDecodes := by
  intro s x1 x2 h1 h2 hb hsrc
  obtain ⟨u1, hu1, hdone1, hsrc1⟩ := runsTo_readu_of_lt hb h1 hsrc
  have hsecond : u1.src = ⟨encUBytes x2 ++ [], true⟩ := by rw [List.append_nil]; exact hsrc1
  obtain ⟨u2, hu2, hdone2, hsrc2⟩ := runsTo_readu_of_lt hdone1.not_busy h2 hsecond
  have hempty : u2.src.queue.length = 0 := by rw [hsrc2]; rfl
  obtain ⟨u3, hu3, hdone3, -⟩ := (readuClosedForm u2 hdone2.not_busy).1
    ⟨by omega, fun k hk => by omega⟩ (by rw [hsrc2])
  rw [hempty] at hu3 hdone3
  exact ⟨u1, u2, u3, hu1, hdone1, hu2, hdone2, hu3, hdone3⟩

end Sys2Proof.Machine
end

section
/-! SUPPORT. One iteration of each signed operation as an equation (42_signed.md R131, R135, R136, R141), with the
statements on them and on SignFinish. -/

namespace Sys2Proof.Machine

/-! ## SignFinish -/

/-- The accumulator as SignFinish leaves it: with the mask added where the sign bit is set (R136). -/
def Block.signedAcc (b : Block) : U64 :=
  if b.acc.getLsbD (7 * b.status.nbytes.toNat - 1) = true then b.acc + b.mask else b.acc

/-- SignFinish completes with the signed accumulator (R136). -/
theorem Block.signFinish_eq (b : Block) :
    b.signFinish = ({ b with acc := b.signedAcc } : Block).finish .none b.signedAcc := by
  rw [Block.signedAcc]
  obtain ⟨hs, e⟩ | ⟨hs, e⟩ := b.signFinish_cases <;> rw [e, hs] <;> rfl

/-- With the mask that n ≥ 1 groups leave, SignFinish completes with the sign extension from bit 7n - 1 (R136). -/
theorem Block.signFinish_completed (b : Block) (h1 : 1 ≤ b.status.nbytes.toNat)
    (hacc : b.acc.toNat < 2 ^ (7 * b.status.nbytes.toNat)) (hmask : b.mask = ONES <<< (7 * b.status.nbytes.toNat)) :
    b.signFinish.Completed .none (sext (7 * b.status.nbytes.toNat) b.acc) b.status.caphit b.status.nbytes.toNat := by
  have hsext : b.signedAcc = sext (7 * b.status.nbytes.toNat) b.acc := by
    rw [Block.signedAcc, hmask]
    exact add_mask _ (by omega) b.acc hacc
  rw [Block.signFinish_eq, hsext]
  exact Block.finish_completed _ _ _

/-- The bits of the mask after n groups, m = 7n (R98). -/
theorem getLsbD_ones_shiftLeft (m i : Nat) : (ONES <<< m).getLsbD i = (decide (i < 64) && decide (m ≤ i)) := by
  rw [BitVec.getLsbD_shiftLeft, ones_getLsbD]
  by_cases hm : m ≤ i
  · by_cases hi : i < 64 <;> simp [hi, hm, Nat.lt_of_le_of_lt (Nat.sub_le i m)]
  · simp [hm]

/-- The mask has no bit in common with a value below its lowest one. -/
theorem and_ones_shiftLeft_of_lt {a : U64} {m : Nat} (ha : a.toNat < 2 ^ m) : a &&& (ONES <<< m) = 0 := by
  apply BitVec.eq_of_getLsbD_eq
  intro i _
  rw [BitVec.getLsbD_and, getLsbD_ones_shiftLeft]
  by_cases hm : m ≤ i
  · simp [getLsbD_of_lt ha hm]
  · simp [hm]

/-- The mask, shifted arithmetically by one, begins one bit lower (R136). -/
theorem sshiftRight_ones_shiftLeft {m : Nat} (hm : m ≤ 62) : (ONES <<< (m + 1)).sshiftRight 1 = ONES <<< m := by
  apply BitVec.eq_of_getLsbD_eq
  intro i hi
  rw [BitVec.getLsbD_sshiftRight, msb_eq]
  simp only [getLsbD_ones_shiftLeft]
  split <;> grind

/-- The mask selects bit m alone from a value below bit m + 1 (R136). -/
theorem ones_shiftLeft_and_ne_zero_iff {a : U64} {m : Nat} (hm : m ≤ 62) (ha : a.toNat < 2 ^ (m + 1)) :
    ONES <<< m &&& a ≠ 0 ↔ a.getLsbD m = true := by
  rw [← not_iff_not, not_ne_iff, Bool.not_eq_true]
  constructor
  · intro h
    have hbit := congrArg (BitVec.getLsbD · m) h
    simp only [BitVec.getLsbD_and, getLsbD_ones_shiftLeft, show m < 64 by omega, le_rfl, decide_true,
      Bool.true_and] at hbit
    exact hbit.trans BitVec.getLsbD_zero
  · intro h
    apply BitVec.eq_of_getLsbD_eq
    intro i _
    rw [BitVec.getLsbD_and, getLsbD_ones_shiftLeft]
    obtain hi | rfl | hi := Nat.lt_trichotomy i m
    · simp [Nat.not_le.mpr hi]
    · simp [h]
    · simp [getLsbD_of_lt ha hi]

/-- Settles O29: SignFinish completes with the signed accumulator, and the mask has no bit of it. -/
theorem signFinishIsSignExtension : Obligations.SignFinishIsSignExtension := by
  refine fun b => ⟨?_, fun h1 h9 hacc hmask => ⟨b.signFinish_completed h1 hacc hmask, ?_, ?_⟩⟩
  · obtain ⟨hs, e⟩ | ⟨hs, e⟩ := b.signFinish_cases <;> rw [e, hs] <;> rfl
  · rw [hmask]
    exact BitVec.add_eq_or_of_and_eq_zero _ _ (and_ones_shiftLeft_of_lt hacc)
  · obtain ⟨m, hm⟩ : ∃ m, 7 * b.status.nbytes.toNat = m + 1 := Nat.exists_eq_add_one.mpr (by omega)
    rw [hm] at hacc hmask ⊢
    rw [hmask, sshiftRight_ones_shiftLeft (by omega), ones_shiftLeft_and_ne_zero_iff (by omega) hacc]
    rfl

/-! ## Iterations, case by case -/

/-- `more` of ENCS in words (R131). -/
theorem Block.moreSigned_iff (b : Block) :
    b.moreSigned = true ↔ b.rem ≠ b.endv ∨ b.rem.getLsbD 0 ≠ b.v.getLsbD 6 := by
  simp [Block.moreSigned]

/-- ENCS goes on where its value needs more groups (R131). -/
theorem iterEncs_of_more {s : State} (hn : s.blk.status.nbytes.toNat < 10) (hm : s.blk.moreSigned = true) :
    iterEncs s = .next (s.withBlk (s.blk.emit (groupByte s.blk.v true) hn).advanceEncs) := by
  rw [iterEncs, if_pos hm, emitThen_of_lt hn]

/-- ENCS completes where its value needs no more groups (R131). -/
theorem iterEncs_of_last {s : State} (hn : s.blk.status.nbytes.toNat < 10) (hm : s.blk.moreSigned = false) :
    iterEncs s = .next (s.withBlk ((s.blk.emit (groupByte s.blk.v false) hn).advanceEncs.finish .none 0)) := by
  rw [iterEncs, if_neg (Bool.not_eq_true _ ▸ hm), emitThen_of_lt hn]

/-- How a byte consumed by a signed decoder routes (R135, R139, R141), with the cap read of the 4-bit register. -/
theorem Block.consume_signFinish (b : Block) (x : U8) :
    b.consume Config.capS Block.signFinish x =
      if contBit x = false then (b.accumulate x).signFinish
      else if (b.accumulate x).status.nbytes = 5 then (b.accumulate x).capHit.signFinish
      else b.accumulate x := by
  simp only [Block.consume, ← BitVec.toNat_inj]
  rfl

/-- READS at the end of a closed source does what P_READS_EOI says (R141, R146). -/
theorem iterReads_of_ended {s : State} (hsrc : s.src = ⟨[], true⟩) :
    iterReads s = .next (s.withBlk (s.blk.readsEoi s.readsEoi)) :=
  decodeStream_of_ended (by rw [hsrc]) (by rw [hsrc]) _ _ _

/-! ## The statements on iterations -/

/-- Settles O23, by whether more groups are needed. -/
theorem encsIteration : Obligations.EncsIteration := by
  refine fun s hn ho => ⟨fun hm => ?_, fun hm => ?_⟩ <;> rw [engineStep_of_op ho, iterate]
  · exact iterEncs_of_more hn (s.blk.moreSigned_iff.mpr hm)
  · rw [iterEncs_of_last hn (Bool.eq_false_iff.mpr (mt s.blk.moreSigned_iff.mp hm)), groupByte_false]
    rfl

/-- Settles O26: TRUNCATED at ILEN, and below it the routing of IBUF[n]. -/
theorem decsIteration : Obligations.DecsIteration := by
  refine fun s ho => ⟨fun hle => ?_, fun hlt x hx => ?_⟩ <;> rw [engineStep_of_op ho, iterate, iterDecs]
  · rw [Block.decodeInput_of_le hle]
    rfl
  · obtain rfl : s.blk.inputAt s.blk.status.nbytes.toNat = x := by
      rw [Block.inputAt_of_lt _ s.blk.status.nbytes.isLt]
      exact Option.some.inj ((Vector.getElem?_eq_getElem _).symm.trans hx)
    rw [Block.decodeInput_of_lt hlt, Block.consume_signFinish, Block.signFinish_eq, Block.signFinish_eq]
    rfl

/-- Settles O28: the end of the source as P_READS_EOI says, and otherwise the routing of its head byte. -/
theorem readsIteration : Obligations.ReadsIteration := by
  intro s ho
  have ended {p : ReadsEoi} (hsrc : s.src = ⟨[], true⟩) (hp : s.readsEoi = p) :
      engineStep s = .next (s.withBlk (s.blk.readsEoi p)) := by
    rw [engineStep_of_op ho, iterate, iterReads_of_ended hsrc, hp]
  refine ⟨ended, ended, fun x rest closed hsrc => ?_⟩
  rw [engineStep_of_op ho, iterate, iterReads, decodeStream_of_cons (by rw [hsrc]), Block.consume_signFinish,
    Block.signFinish_eq, Block.signFinish_eq, hsrc]
  rfl

end Sys2Proof.Machine
end

section
/-! SUPPORT. Signed lengths, sign extension and the value of the groups of a signed encoding (42_signed.md R132, R133,
R144), with the statement on lengths. -/

namespace Sys2Proof.Machine

/-! ## Lengths -/

/-- What it says that a value fits in 7k bits (R132). -/
theorem fitsSigned_iff {z : Int} {k : Nat} :
    fitsSigned z k = true ↔ -(2 : Int) ^ (7 * k - 1) ≤ z ∧ z ≤ 2 ^ (7 * k - 1) - 1 := by
  simp [fitsSigned]

/-- The signed length against a bound, with the bound written out (R132). -/
theorem encSLen_le_iff {x : U64} {k : Nat} (hk : 1 ≤ k) :
    encSLen x ≤ k ↔ -(2 : Int) ^ (7 * k - 1) ≤ x.toInt ∧ x.toInt ≤ 2 ^ (7 * k - 1) - 1 :=
  (encSLen_le hk).trans fitsSigned_iff

/-- Settles O44: the table from the bound on each length. -/
theorem signedLengthTable : Obligations.SignedLengthTable := by
  intro x
  have hpos := encSLen_pos x
  have hten := encSLen_le_ten x
  have h1 : encSLen x ≤ 1 ↔ _ := encSLen_le_iff le_rfl
  have h9 : encSLen x ≤ 9 ↔ _ := encSLen_le_iff (by omega)
  refine ⟨hten, by omega, fun k hk2 _ => ?_, by omega⟩
  rw [← encSLen_le_iff (by omega), ← encSLen_le_iff (by omega)]
  omega

/-! ## Sign extension -/

/-- A sign extension reads only the bits it keeps (R11). -/
theorem sext_congr {n : Nat} {v w : U64} (h : v.toNat % 2 ^ n = w.toNat % 2 ^ n) : sext n v = sext n w :=
  congrArg (BitVec.signExtend 64) (BitVec.eq_of_toNat_eq (by simpa using h))

/-- A sign extension from 7k bits is a value that fits in 7k bits (R11, R132). -/
theorem fitsSigned_sext {k : Nat} (hk : k ≤ 9) (v : U64) : fitsSigned (sext (7 * k) v).toInt k = true := by
  rw [sext, BitVec.toInt_signExtend_of_le (by omega), fitsSigned_iff]
  exact ⟨BitVec.le_toInt _, Int.le_sub_one_of_lt BitVec.toInt_lt⟩

/-- The sign extension of the low 7k bits leaves exactly the values that fit in them (R144). -/
theorem sext_eq_self_iff {k : Nat} (h1 : 1 ≤ k) (h9 : k ≤ 9) (x : U64) :
    sext (7 * k) x = x ↔ fitsSigned x.toInt k = true := by
  refine ⟨fun h => h ▸ fitsSigned_sext h9 x, fun h => BitVec.toInt_inj.mp ?_⟩
  obtain ⟨hlo, hhi⟩ := fitsSigned_iff.mp h
  have hdouble : (2 : Int) ^ (7 * k) = 2 * 2 ^ (7 * k - 1) := by
    rw [← pow_succ']; congr 1; omega
  have hdvd : 2 ^ (7 * k) ∣ 2 ^ 64 := Nat.pow_dvd_pow 2 (by omega)
  rw [sext, BitVec.toInt_signExtend_of_le (by omega), BitVec.toInt_setWidth, ← Int.bmod_bmod_of_dvd hdvd,
    ← BitVec.toInt_eq_toNat_bmod]
  exact Int.bmod_eq_of_le_mul_two (by push_cast; omega) (by push_cast; omega)

/-! ## The value of the groups -/

/-- Group k ≤ 8 of a signed encoding is bits 7k to 7k + 6 of the value: no copy of the sign is among them (R132). -/
theorem toNat_payload_encSByte {x : U64} {k : Nat} (hk : k < encSLen x) (h8 : k ≤ 8) :
    (payload (encSByte x k)).toNat = x.toNat / 2 ^ (7 * k) % 2 ^ 7 := by
  have hshift : x.sshiftRight (7 * k) &&& 0x7F = x >>> (7 * k) &&& 0x7F := by
    apply BitVec.eq_of_getLsbD_eq
    intro i hi
    by_cases h7 : i < 7
    · rw [BitVec.getLsbD_and, BitVec.getLsbD_and, BitVec.getLsbD_sshiftRight, BitVec.getLsbD_ushiftRight,
        if_pos (by omega), decide_eq_false (by omega)]
      rfl
    · simp [getLsbD_of_lt (a := 0x7F#64) (m := 7) (by decide) (Nat.not_lt.mp h7)]
  rw [encSByte_of_lt hk, payload_groupByte, hshift, BitVec.toNat_and, BitVec.toNat_ushiftRight,
    Nat.shiftRight_eq_div_pow]
  exact Nat.and_two_pow_sub_one_eq_mod _ 7

/-- The sum of the first m ≤ 9 groups of a signed encoding is the low 7m bits of the value (R72, R132). -/
theorem toNat_groupSum_of_encSByte {x : U64} {f : Nat → U8} {m : Nat} (hm : m ≤ 9) (hL : m ≤ encSLen x)
    (hf : ∀ k, k < m → f k = encSByte x k) : (groupSum f m).toNat = x.toNat % 2 ^ (7 * m) := by
  induction m with
  | zero => simp [groupSum, Nat.mod_one]
  | succ n ih =>
    have hlt := groupSum_lt f n (by omega)
    rw [groupSum, (toNat_accum (by omega) hlt (f n)).1, ih (by omega) (by omega) fun k hk => hf k (by omega),
      hf n (by omega), toNat_payload_encSByte (by omega) (by omega), Nat.mul_succ, Nat.pow_add, Nat.mod_mul]
    ring

/-- Under the cap 5 the groups of a signed encoding give the value's low 35 bits, sign-extended (R144). -/
theorem sext_groupSum_of_encSByte {x : U64} {f : Nat → U8} (hf : ∀ k, k < encSLen x → f k = encSByte x k) :
    sext (7 * min (encSLen x) 5) (groupSum f (min (encSLen x) 5)) = sext 35 x := by
  have hpos := encSLen_pos x
  have hsum := toNat_groupSum_of_encSByte (m := min (encSLen x) 5) (by omega) (by omega) fun k hk => hf k (by omega)
  rw [sext_congr (w := x) (by rw [hsum, Nat.mod_mod])]
  by_cases h : encSLen x ≤ 5
  · have hfits := (encSLen_le hpos).mp le_rfl
    rw [Nat.min_eq_left h, (sext_eq_self_iff hpos (by omega) x).mpr hfits]
    exact ((sext_eq_self_iff (k := 5) (by omega) (by omega) x).mpr (fitsSigned_mono hfits hpos h)).symm
  · rw [Nat.min_eq_right (by omega)]

/-- The continuation flags of a signed encoding (R70, R73). -/
theorem contBit_encSByte {x : U64} {k : Nat} (hk : k < encSLen x) :
    contBit (encSByte x k) = decide (k + 1 < encSLen x) := by
  rw [encSByte_of_lt hk, contBit_groupByte]

/-- Under the cap 5 a signed encoding is one varint, cut at its fifth byte where it has more (R71, R144). -/
theorem varintLen_of_encSByte {x : U64} {f : Nat → U8} (hf : ∀ k, k < encSLen x → f k = encSByte x k) :
    varintLen 5 f = min (encSLen x) 5 := by
  have hpos := encSLen_pos x
  have hc {k : Nat} (hk : k < encSLen x) : contBit (f k) = decide (k + 1 < encSLen x) := by
    rw [hf k hk, contBit_encSByte hk]
  refine varintLen_unique (by omega) (by omega) (fun k hk => ?_) fun h => ?_
  · rw [hc (by omega)]; exact decide_eq_true (by omega)
  · rw [hc (by omega), decide_eq_true_iff] at h; omega

end Sys2Proof.Machine
end

section
/-! SUPPORT. The closed form of ENCS (42_signed.md R132) as a run that counts the bytes emitted. -/

namespace Sys2Proof.Machine

/-- OBUF after an emission, byte by byte (R111, R131). -/
theorem Block.outputAt_emit (b : Block) (x : U8) (h : b.status.nbytes.toNat < 10) (k : Nat) :
    (b.emit x h).outputAt k = if k = b.status.nbytes.toNat then x else b.outputAt k := by
  split
  · subst k; exact b.outputAt_emit_self x h
  · exact b.outputAt_emit_of_ne x h ‹_›

/-- ENCS underway: its loop invariant, the first n bytes of the encoding in OBUF, and the source untouched. -/
structure State.EncsUnderway (s : State) (n : Nat) (t : State) : Prop extends State.Underway .encs s n t where
  loop   : t.blk.EncsLoop
  output : ∀ k, t.blk.outputAt k = if k < n then encSByte s.blk.operand k else 0
  src_eq : t.src = s.src

/-- Start leaves ENCS underway (R130). -/
theorem State.EncsUnderway.begun (s : State) : s.EncsUnderway 0 (s.withBlk (s.blk.begun .encs)) where
  toUnderway := .begun .encs s
  loop := s.blk.begun_loop .encs
  output k := Block.outputAt_of_cleared rfl k
  src_eq := rfl

section
variable {s t : State} {n : Nat}

/-- ENCS goes on exactly where the encoding has a byte n + 1 (R131, R132). -/
theorem State.EncsUnderway.moreSigned_eq (h : s.EncsUnderway n t) :
    t.blk.moreSigned = decide (n + 1 < encSLen s.blk.operand) := by
  have hfits := noMore_iff s.blk.operand n
  rw [← encSLen_le (by omega)] at hfits
  rw [Bool.eq_iff_iff, Block.moreSigned_iff, decide_eq_true_iff, ← not_iff_not, Nat.not_lt, ← hfits, h.loop.rem_eq,
    h.loop.endv_eq, h.loop.v_eq, h.keeps.operand, h.nbytes_eq, not_or, not_not, not_not]

/-- The byte ENCS emits is the next one of the encoding (R132). -/
theorem State.EncsUnderway.output_emit (h : s.EncsUnderway n t) (hn : n < encSLen s.blk.operand)
    (hlt : t.blk.status.nbytes.toNat < 10) (k : Nat) :
    (t.blk.emit (groupByte t.blk.v t.blk.moreSigned) hlt).outputAt k =
      if k < n + 1 then encSByte s.blk.operand k else 0 := by
  have hbyte : groupByte t.blk.v t.blk.moreSigned = encSByte s.blk.operand n := by
    rw [h.moreSigned_eq, encSByte_of_lt hn, h.loop.v_eq, h.keeps.operand, h.nbytes_eq]
  rw [Block.outputAt_emit, h.nbytes_eq, hbyte, h.output]
  obtain hk | rfl | hk := Nat.lt_trichotomy k n
  · rw [if_neg hk.ne, if_pos hk, if_pos (by omega)]
  · rw [if_pos rfl, if_pos (by omega)]
  · rw [if_neg hk.ne', if_neg (by omega), if_neg (by omega)]

/-- Before its last byte ENCS goes on (R131). -/
theorem State.EncsUnderway.step (h : s.EncsUnderway n t) (hn : n + 1 < encSLen s.blk.operand) :
    ∃ u, engineStep t = .next u ∧ s.EncsUnderway (n + 1) u := by
  have hten := encSLen_le_ten s.blk.operand
  have hlt := h.loop.nbytes_lt
  have hm : t.blk.moreSigned = true := h.moreSigned_eq.trans (decide_eq_true hn)
  have he := (engineStep_of_op h.op_eq).trans (iterEncs_of_more hlt hm)
  exact ⟨_, he, h.goOn (by omega) he rfl rfl rfl, h.loop.emit_advance hm hlt,
    hm ▸ h.output_emit (by omega) hlt, h.src_eq⟩

/-- At its last byte ENCS completes, and OBUF holds the encoding (R131, R132). -/
theorem State.EncsUnderway.last (h : s.EncsUnderway n t) (hn : encSLen s.blk.operand = n + 1) :
    ∃ u, engineStep t = .next u ∧ u.blk.Completed .none 0 false (n + 1) ∧
      (∀ k, u.blk.outputAt k = encSByte s.blk.operand k) ∧ s.KeepsInputs u ∧ u.src = s.src := by
  have hlt := h.loop.nbytes_lt
  have hm : t.blk.moreSigned = false := h.moreSigned_eq.trans (decide_eq_false (by omega))
  have he := (engineStep_of_op h.op_eq).trans (iterEncs_of_last hlt hm)
  have hcount : (t.blk.status.nbytes + 1).toNat = n + 1 := by rw [toNat_add_one (by omega), h.nbytes_eq]
  refine ⟨_, he, ?_, fun k => ?_, h.keeps.trans (engineStepFrame _ _ he).1, h.src_eq⟩
  · exact ⟨rfl, rfl, rfl, rfl, rfl, h.outputs.caphit_off, hcount⟩
  · have hout := h.output_emit (by omega) hlt k
    rw [hm, ← hn] at hout
    exact hout.trans (ite_eq_left_iff.mpr fun hk => (if_neg hk).symm)

end

/-- Settles O43: the length is the least that holds the value, and ENCS goes on up to the last byte of the encoding and
completes there. -/
theorem encsClosedForm : Obligations.EncsClosedForm := by
  intro s hb x L
  have hpos : 1 ≤ L := encSLen_pos x
  obtain ⟨hlo, hhi⟩ := (encSLen_le_iff hpos).mp (le_refl L)
  refine ⟨⟨hpos, hlo, hhi, fun k hk hklo hkhi => (encSLen_le_iff hk).mpr ⟨hklo, hkhi⟩⟩, ?_⟩
  obtain ⟨n, hn⟩ : ∃ n, encSLen s.blk.operand = n + 1 := Nat.exists_eq_add_one.mpr hpos
  obtain ⟨t, ht, hP⟩ := runsTo_reach (P := s.EncsUnderway) hb (State.EncsUnderway.begun s) n fun m t hm h =>
    ⟨h.engineEnabled nofun, h.step (by omega)⟩
  obtain ⟨u, hu, hdone, hbytes, hkeeps, hsrc⟩ := hP.last hn
  rw [show L = n + 1 from hn]
  exact ⟨u, runsTo_succ ht (hP.engineEnabled nofun) hu, hdone, fun k _ => hbytes k, hkeeps, hsrc⟩

end Sys2Proof.Machine
end

section
/-! SUPPORT. DECS and READS as decoders (42_signed.md R134–R143, R146), and their closed forms. -/

namespace Sys2Proof.Machine

/-- DECS (R134–R139). -/
def Decoder.decs : Decoder :=
  ⟨.decs, Config.capS, Block.signFinish, fun n acc => sext (7 * n) acc, State.inputFeed⟩

/-- READS (R140–R143, R146). -/
def Decoder.reads : Decoder :=
  ⟨.reads, Config.capS, Block.signFinish, fun n acc => sext (7 * n) acc, State.sourceFeed⟩

theorem Decoder.decs_lawful : Decoder.decs.Lawful where
  cap_pos := by decide
  cap_le := by decide
  begun _ := rfl
  src_zero _ := rfl
  frame := Block.signFinish_decoderFrame
  completed b h1 _ := b.signFinish_completed h1
  consumes h := h.consumes_input rfl rfl rfl

theorem Decoder.reads_lawful : Decoder.reads.Lawful where
  cap_pos := by decide
  cap_le := by decide
  begun _ := rfl
  src_zero _ := rfl
  frame := Block.signFinish_decoderFrame
  completed b h1 _ := b.signFinish_completed h1
  consumes {_ t _} h := h.consumes_source (e := Block.readsEoi t.readsEoi) rfl rfl

/-- Settles O47: the bytes below ILEN run out underway, or hold the varint. -/
theorem decsClosedForm : Obligations.DecsClosedForm := by
  refine fun s hb => ⟨fun ⟨hcap, hconts⟩ => ?_, fun hout => ?_⟩
  · obtain ⟨t, ht, hP⟩ := Decoder.decs_lawful.runsTo_underway hb hcap le_rfl hconts
    obtain ⟨u, hen, hu, hdone⟩ := hP.truncated rfl rfl rfl rfl
    exact ⟨u, runsTo_succ ht hen hu, hdone⟩
  · have hlen := varintLen_le (by decide) hout
    obtain ⟨u, hu, hdone, hobuf, hkeeps, hsrc⟩ := Decoder.decs_lawful.runsTo_decoded hb hlen
    exact ⟨hlen, (varintLen_spec 5 (by decide) _).2.2.2, u, hu, hdone, hobuf, hkeeps, hsrc⟩

/-- READS at the end of a closed source ends as P_READS_EOI says (R146). -/
theorem Decoder.Underway.endsAsReadsEoi {s t : State} {n : Nat} (h : Decoder.reads.Underway s n t)
    (hsrc : t.src = ⟨[], true⟩) :
    ∃ u, engineEnabled t = true ∧ engineStep t = .next u ∧
      (s.readsEoi = .error → u.blk.Completed .unexpectedEoi 0 false n) ∧
      (s.readsEoi = .fault → u.blk.Stopped n) ∧
      u.src = ⟨[], true⟩ ∧ u.blk.obuf = Vector.replicate 10 0 ∧ s.KeepsInputs u := by
  have hst := (engineStep_of_op h.op_eq).trans (iterReads_of_ended hsrc)
  rw [h.keeps.readsEoi] at hst
  refine ⟨_, h.engineEnabled fun _ => by rw [hsrc]; rfl, hst, fun hp => ?_, fun hp => ?_, hsrc,
    (t.blk.readsEoi_decoderFrame _).obuf.trans h.loop.obuf_zero, h.keeps.trans (engineStepFrame _ _ hst).1⟩ <;>
    rw [hp]
  · exact ⟨rfl, rfl, rfl, rfl, rfl, h.outputs.caphit_off, h.nbytes_eq⟩
  · obtain ⟨busy, done, err, caphit, result⟩ := h.outputs
    exact ⟨rfl, busy, rfl, done, err, result, caphit, h.nbytes_eq⟩

/-- Settles O49: the bytes of the source run out underway, where the source is at its end or holds READS, or hold the
varint. -/
theorem readsClosedForm : Obligations.ReadsClosedForm := by
  intro s hb
  have underway (h : runsOut 5 (byteAt s.src.queue) s.src.queue.length) :=
    Decoder.reads_lawful.runsTo_underway hb h.1 le_rfl h.2
  refine ⟨fun hout hclosed => ?_, fun hout hopen => ?_, fun hout => ?_⟩
  · obtain ⟨t, ht, hP⟩ := underway hout
    obtain ⟨u, hen, hu, hend⟩ := hP.endsAsReadsEoi (hclosed ▸ hP.src_of_consumed rfl)
    exact ⟨u, runsTo_succ ht hen hu, hend⟩
  · obtain ⟨t, ht, hP⟩ := underway hout
    have hsrc := hopen ▸ hP.src_of_consumed rfl
    have hheld : engineEnabled t = false := by rw [engineEnabled_of_run hP.phase hP.op_eq, hsrc]; rfl
    exact ⟨t, ht, hP.phase, hP.outputs.busy, hP.nbytes_eq, hP.acc_eq, hsrc, hheld, hP.loop.obuf_zero, hP.keeps⟩
  · have hlen := varintLen_le (by decide) hout
    obtain ⟨u, hu, hdone, hobuf, hkeeps, hsrc⟩ := Decoder.reads_lawful.runsTo_decoded hb hlen
    exact ⟨hlen, u, hu, hdone, hsrc, hobuf, hkeeps⟩

end Sys2Proof.Machine
end

section
/-! SUPPORT. The round trip of the signed family (42_signed.md R144): a signed decoder that is offered the bytes of an
encoding, and the range of what the signed decoders answer. -/

namespace Sys2Proof.Machine

/-! ## Decoding an encoding -/

/-- A signed decoder that is offered the bytes of an encoding gives the value's low 35 bits, sign-extended, in as many
bytes as the cap allows (R144). -/
theorem Decoder.Lawful.runsTo_signedRoundTrip {d : Decoder} (hd : d.Lawful) (hcap : d.cap = 5)
    (hval : ∀ n acc, d.value n acc = sext (7 * n) acc) {s : State} (hb : s.blk.status.busy = false) {x : U64}
    (hlen : encSLen x ≤ (d.feed s).len) (hf : ∀ k, k < encSLen x → (d.feed s).byte k = encSByte x k) :
    ∃ u, runsTo d.op s (min (encSLen x) 5) u ∧
      u.blk.Completed .none (sext 35 x) (decide (5 < encSLen x)) (min (encSLen x) 5) ∧
      u.src = (d.feed s).src (min (encSLen x) 5) := by
  have hpos := encSLen_pos x
  have hL : varintLen d.cap (d.feed s).byte = min (encSLen x) 5 := hcap ▸ varintLen_of_encSByte hf
  have hflag : contBit ((d.feed s).byte (min (encSLen x) 5 - 1)) = decide (5 < encSLen x) := by
    rw [hf _ (by omega), contBit_encSByte (by omega), decide_eq_decide]
    omega
  obtain ⟨u, hu, hdone, -, -, hsrc⟩ := hd.runsTo_decoded hb (by omega)
  rw [hL] at hu hdone hsrc
  rw [hval, sext_groupSum_of_encSByte hf, hflag] at hdone
  exact ⟨u, hu, hdone, hsrc⟩

/-! ## The range of a signed result -/

/-- The loop invariant of a decoder under a smaller cap holds under a larger one. -/
theorem Block.DecoderLoop.mono {b : Block} {cap cap' : Nat} (h : b.DecoderLoop cap) (hle : cap ≤ cap') :
    b.DecoderLoop cap' :=
  ⟨Nat.lt_of_lt_of_le h.nbytes_lt hle, h.acc_lt, h.mask_eq, h.obuf_zero⟩

/-- SignFinish after at most five groups answers a value that fits in five groups (R144). -/
theorem Block.fitsSigned_signFinish {b : Block} {cap : Nat} (h : b.DecoderLoop cap) (h1 : 1 ≤ b.status.nbytes.toNat)
    (h5 : b.status.nbytes.toNat ≤ 5) : fitsSigned b.signFinish.result.toInt 5 = true := by
  rw [(b.signFinish_completed h1 h.acc_lt h.mask_eq).result_eq]
  exact fitsSigned_mono (fitsSigned_sext (by omega) b.acc) h1 h5

/-- Whatever byte a signed decoder consumes, the result fits in five groups (R144, R158). -/
theorem Block.fitsSigned_consume {b : Block} (h : b.DecoderLoop Config.capS) (hr : b.result = 0) (x : U8) :
    fitsSigned (b.consume Config.capS Block.signFinish x).result.toInt 5 = true := by
  have hlt : b.status.nbytes.toNat < 5 := h.nbytes_lt
  have hcount := h.nbytes_accumulate (by decide) x
  have hloop : (b.accumulate x).DecoderLoop 9 := (h.mono (by decide)).accumulate le_rfl x (by omega)
  refine b.consume_of Config.capS Block.signFinish x (P := fun c => fitsSigned c.result.toInt 5 = true) ?_ ?_ ?_
  · rw [Block.accumulate_result, hr]; rfl
  · exact Block.fitsSigned_signFinish hloop (by omega) (by omega)
  · have hcapped : (b.accumulate x).capHit.DecoderLoop 9 :=
      ⟨hloop.nbytes_lt, hloop.acc_lt, hloop.mask_eq, hloop.obuf_zero⟩
    refine Block.fitsSigned_signFinish hcapped ?_ ?_ <;> rw [Block.capHit_status, Status.capped_nbytes] <;> omega

/-- READS at the end of a closed source leaves a zero result under both values of P_READS_EOI (R146). -/
theorem Block.readsEoi_result {b : Block} (hr : b.result = 0) (p : ReadsEoi) : (b.readsEoi p).result = 0 := by
  cases p with
  | error => rfl
  | fault => exact hr

/-- In the invariant the result after a step of a signed decoder fits in five groups (R144). -/
theorem State.Inv.fitsSigned_engineStep {s t : State} (h : s.Inv) (hp : s.blk.phase = .run)
    (hop : signedDecoder s.blk.op = true) (hst : Machine.engineStep s = .next t) :
    fitsSigned t.blk.result.toInt 5 = true := by
  have hloop := h.running.signed hp hop
  have hr := h.running.result_zero (h.r48.busy_iff.mpr (by simp [hp]))
  obtain ⟨i, ho, hi⟩ := engineStep_next hst
  obtain rfl | rfl : i = .decs ∨ i = .reads := by simpa [ho] using hop
  · obtain rfl := Host.Outcome.next.inj hi
    obtain ⟨-, e⟩ | ⟨-, e⟩ := s.blk.decodeInput_cases Config.capS Block.signFinish <;> rw [State.withBlk_blk, e]
    · rfl
    · exact Block.fitsSigned_consume hloop hr _
  · obtain ⟨x, rest, -, e⟩ | ⟨-, -, e⟩ | ⟨-, -, e⟩ :=
      decodeStream_cases Config.capS Block.signFinish (Block.readsEoi s.readsEoi) s
    · obtain rfl := Host.Outcome.next.inj (e.symm.trans hi)
      exact Block.fitsSigned_consume hloop hr x
    · obtain rfl := Host.Outcome.next.inj (e.symm.trans hi)
      rw [State.withBlk_blk, Block.readsEoi_result hr]
      rfl
    · cases e.symm.trans hi

/-! ## The statement -/

/-- Settles O51: OBUF holds the encoding after ENCS, each decoder gives back what it is offered, and five groups bound
every result. -/
theorem signedRoundTrip : Obligations.SignedRoundTrip := by
  refine ⟨fun s hb => ?_, fun s t h hp hop hst => fitsSigned_iff.mp (h.fitsSigned_engineStep hp hop hst)⟩
  intro x L small
  have hten : L ≤ 10 := encSLen_le_ten x
  have hfive : L ≤ 5 ↔ small := encSLen_le_iff (by decide)
  have hsext : sext 35 x = x ↔ small := (sext_eq_self_iff (k := 5) (by decide) (by decide) x).trans fitsSigned_iff
  obtain ⟨-, u, hu, -, hout, -⟩ := encsClosedForm s hb
  refine ⟨u, hu, hfive.symm, hsext.symm, fun s' hb' hilen hin => ?_, fun s' hb' hq => ?_⟩
  · obtain ⟨u', hu', hdone, -⟩ := Decoder.decs_lawful.runsTo_signedRoundTrip rfl (fun _ _ => rfl) hb' (x := x)
      hilen.ge fun k hk => (hin k hk).trans (hout k (by omega))
    exact ⟨u', hu', hdone⟩
  · have hlen : s'.src.queue.length = L := by simp [hq]
    have hbyte (k : Nat) (hk : k < L) : byteAt s'.src.queue k = encSByte x k := by
      rw [← hout k (by omega), byteAt, hq]
      simp [hk]
    obtain ⟨u', hu', hdone, hsrc⟩ := Decoder.reads_lawful.runsTo_signedRoundTrip rfl (fun _ _ => rfl) hb' (x := x)
      hlen.ge hbyte
    refine ⟨u', hu', hdone, fun hsmall => ?_⟩
    rw [hsrc]
    exact List.drop_of_length_le (by have := hfive.mpr hsmall; omega)

end Sys2Proof.Machine
end
